-- ==== Sys2Proof/Word.lean ====
section
/-!
DEFINITION. The words of the Trivium-PAA core: bytes, command words, and the value a single bit has
in a byte-wide register (spec 00_scope.md R7, R8 and section 6).
-/

namespace Sys2Proof

/-- A byte: state byte, key byte, IV byte, input or output byte, keystream byte (00_scope.md section 6). -/
abbrev Byte := BitVec 8

/-- A command word `cmd[15:0]`, bit 0 least significant (30_encoding.md R50). -/
abbrev CmdWord := BitVec 16

/-- `zext_8` of one bit: 0x00 or 0x01 (00_scope.md R8). -/
def zext8 (v : Bool) : Byte := if v then 0x01#8 else 0x00#8

end Sys2Proof
end

