-- ==== Sys2Proof/Syntax.lean ====
section
/-!
DEFINITION. The commands of TPAA-1, one constructor per row of the opcode map (30_encoding.md R53). Operands
are the command word's own fields, unsigned naturals of the field's width (R52).
-/

namespace Sys2Proof

/-- The eleven commands (30_encoding.md R53). `off` is a flat bit offset, `v` the bit to write, `k` the
splitByte and `n` the run length of a crosswrite (R52). -/
inductive Instr where
  /-- GETBIT off (40_bit_accessor.md R72). -/
  | getbit (off : BitVec 9)
  /-- PUTBIT off, v (40_bit_accessor.md R73). -/
  | putbit (off : BitVec 9) (v : Bool)
  /-- XWF k, n (41_crosswrite.md R82). -/
  | xwf (k : BitVec 6) (n : BitVec 3)
  /-- XWB k, n (41_crosswrite.md R83). -/
  | xwb (k : BitVec 6) (n : BitVec 3)
  /-- SETUP (42_state_initializer.md R92). -/
  | setup
  /-- ROT1 (43_keystream_core.md R102). -/
  | rot1
  /-- CLOCK (43_keystream_core.md R104). -/
  | clock
  /-- KSBYTE (43_keystream_core.md R107). -/
  | ksbyte
  /-- WARMUP (44_cipher_driver.md R122). -/
  | warmup
  /-- CIPHER.IP, the in-place variant (44_cipher_driver.md R125). -/
  | cipherIp
  /-- CIPHER.CP, the copy variant (44_cipher_driver.md R126). -/
  | cipherCp
  deriving DecidableEq, Repr

/-- The pseudo-instruction ENCRYPT expands to CIPHER.CP (30_encoding.md R57). -/
abbrev Instr.encrypt : Instr := .cipherCp

/-- The pseudo-instruction DECRYPT expands to CIPHER.CP, the identical operation (30_encoding.md R57). -/
abbrev Instr.decrypt : Instr := .cipherCp

end Sys2Proof
end

