-- ==== Sys2Proof/WellFormed.lean ====
section
/-!
DEFINITION. Which operands are legal (30_encoding.md R52, column "legal"). Every `Instr` is encodable, since its
operands have the width of their fields; one whose operands are not legal is still "a legal encoding of a
command that faults" (R54), so this check is about the operands' range and not about decoding.
-/

namespace Sys2Proof

/-- Legal operands (30_encoding.md R52): `off` in 0..287, `k` in 1..35, `n` in 1..7. -/
def Instr.wf : Instr → Bool
  | .getbit off => off.toNat ≤ 287
  | .putbit off _ => off.toNat ≤ 287
  | .xwf k n => 1 ≤ k.toNat && k.toNat ≤ 35 && 1 ≤ n.toNat
  | .xwb k n => 1 ≤ k.toNat && k.toNat ≤ 35 && 1 ≤ n.toNat
  | .setup => true
  | .rot1 => true
  | .clock => true
  | .ksbyte => true
  | .warmup => true
  | .cipherIp => true
  | .cipherCp => true

end Sys2Proof
end

