-- ==== Sys2Proof/Decode.lean ====
section
/-!
DEFINITION. The command encoding (30_encoding.md R50 to R55): a decoder that is total on 16-bit words and rejects by
name, the encoder, and the opcode map as rows of match and mask.
-/

namespace Sys2Proof

/-- Why a word is no command (30_encoding.md R54): it raises ILLEGAL_CMD either way. -/
inductive DecodeError where
  /-- `cmd[15:12]` is 0x0 or 0xC..0xF. -/
  | reservedOpcode (op : BitVec 4)
  /-- The opcode is assigned, and a must-be-zero bit of its format is not zero. -/
  | nonZeroMbz (op : BitVec 4)
  deriving DecidableEq, Repr

/-- Format N (30_encoding.md R51): `cmd[11:0]` must be zero. -/
def decodeN (i : Instr) (w : CmdWord) : Except DecodeError Instr :=
  if w.extractLsb' 0 12 = 0#12 then .ok i else .error (.nonZeroMbz (w.extractLsb' 12 4))

/-- Format G (30_encoding.md R51): `cmd[11:9]` must be zero, `off = cmd[8:0]`. -/
def decodeG (mk : BitVec 9 → Instr) (w : CmdWord) : Except DecodeError Instr :=
  if w.extractLsb' 9 3 = 0#3 then .ok (mk (w.extractLsb' 0 9)) else .error (.nonZeroMbz (w.extractLsb' 12 4))

/-- Format P (30_encoding.md R51): `cmd[11:10]` must be zero, `v = cmd[9]`, `off = cmd[8:0]`. -/
def decodeP (mk : BitVec 9 → Bool → Instr) (w : CmdWord) : Except DecodeError Instr :=
  if w.extractLsb' 10 2 = 0#2 then .ok (mk (w.extractLsb' 0 9) (w.getLsbD 9))
  else .error (.nonZeroMbz (w.extractLsb' 12 4))

/-- Format X (30_encoding.md R51): `cmd[11:9]` must be zero, `n = cmd[8:6]`, `k = cmd[5:0]`. -/
def decodeX (mk : BitVec 6 → BitVec 3 → Instr) (w : CmdWord) : Except DecodeError Instr :=
  if w.extractLsb' 9 3 = 0#3 then .ok (mk (w.extractLsb' 0 6) (w.extractLsb' 6 3))
  else .error (.nonZeroMbz (w.extractLsb' 12 4))

/-- The decoder (30_encoding.md R50, R53, R54): the opcode is `cmd[15:12]`. -/
def decode (w : CmdWord) : Except DecodeError Instr :=
  match (w.extractLsb' 12 4).toNat with
  | 0x1 => decodeG .getbit w
  | 0x2 => decodeP .putbit w
  | 0x3 => decodeX .xwf w
  | 0x4 => decodeX .xwb w
  | 0x5 => decodeN .setup w
  | 0x6 => decodeN .rot1 w
  | 0x7 => decodeN .clock w
  | 0x8 => decodeN .ksbyte w
  | 0x9 => decodeN .warmup w
  | 0xA => decodeN .cipherIp w
  | 0xB => decodeN .cipherCp w
  | _ => .error (.reservedOpcode (w.extractLsb' 12 4))

/-- The encoder: the fields side by side, most significant first, as the formats of 30_encoding.md R51 lay them
out (the literal holds the opcode and the must-be-zero bits). -/
def encode : Instr → CmdWord
  | .getbit off => 0b0001000#7 ++ off
  | .putbit off v => 0b001000#6 ++ BitVec.ofBool v ++ off
  | .xwf k n => 0b0011000#7 ++ n ++ k
  | .xwb k n => 0b0100000#7 ++ n ++ k
  | .setup => 0x5000#16
  | .rot1 => 0x6000#16
  | .clock => 0x7000#16
  | .ksbyte => 0x8000#16
  | .warmup => 0x9000#16
  | .cipherIp => 0xA000#16
  | .cipherCp => 0xB000#16

/-- One row of the opcode map: `w` is the command exactly when `w & mask = match` (30_encoding.md R53). -/
structure OpcodeRow where
  mnemonic : String
  matchBits : CmdWord
  mask : CmdWord
  deriving DecidableEq, Repr

/-- The row of each command (30_encoding.md R53), transcribed apart from the decoder and the encoder, so that each
can be held against it. -/
def Instr.row : Instr → OpcodeRow
  | .getbit _ => ⟨"GETBIT", 0x1000#16, 0xFE00#16⟩
  | .putbit _ _ => ⟨"PUTBIT", 0x2000#16, 0xFC00#16⟩
  | .xwf _ _ => ⟨"XWF", 0x3000#16, 0xFE00#16⟩
  | .xwb _ _ => ⟨"XWB", 0x4000#16, 0xFE00#16⟩
  | .setup => ⟨"SETUP", 0x5000#16, 0xFFFF#16⟩
  | .rot1 => ⟨"ROT1", 0x6000#16, 0xFFFF#16⟩
  | .clock => ⟨"CLOCK", 0x7000#16, 0xFFFF#16⟩
  | .ksbyte => ⟨"KSBYTE", 0x8000#16, 0xFFFF#16⟩
  | .warmup => ⟨"WARMUP", 0x9000#16, 0xFFFF#16⟩
  | .cipherIp => ⟨"CIPHER.IP", 0xA000#16, 0xFFFF#16⟩
  | .cipherCp => ⟨"CIPHER.CP", 0xB000#16, 0xFFFF#16⟩

/-- `w & mask = match` (30_encoding.md R53). -/
abbrev OpcodeRow.isMatch (r : OpcodeRow) (w : CmdWord) : Prop := w &&& r.mask = r.matchBits

/-- The opcode map as a list, in the order of 30_encoding.md R53. -/
def opcodeMap : List OpcodeRow :=
  [(Instr.getbit 0).row, (Instr.putbit 0 false).row, (Instr.xwf 0 0).row, (Instr.xwb 0 0).row, Instr.setup.row,
    Instr.rot1.row, Instr.clock.row, Instr.ksbyte.row, Instr.warmup.row, Instr.cipherIp.row, Instr.cipherCp.row]

/-- The command that the command port's word makes of the low `nbits` bits of `w`, bits above `nbits` being zero.
A command is one 16-bit word presented in one transaction (30_encoding.md R50), so no byte order enters. -/
def tableWord (nbits w : Nat) : CmdWord := BitVec.ofNat 16 (w % 2 ^ nbits)

/-- The instruction the decoder reads from an opcode-table word (log 2). -/
def decodeTableWord (nbits w : Nat) : Option Instr :=
  match decode (tableWord nbits w) with
  | .ok i => some i
  | .error _ => none

end Sys2Proof
end

