-- ==== Sys2Proof/Config.lean ====
section
/-!
DEFINITION. What an instance of the core fixes: the loop bounds of the algorithm (00_scope.md R5), the two open
parameters of an instance (R6), and the one free value the spec leaves open (R171, U6). The other literals of R5 (36 state
bytes, 10 key and IV bytes, the tap and injection offsets) stand in the types and definitions that use them, as
in the spec's own pseudocode.
-/

namespace Sys2Proof

namespace Config

/-- WARMUP_CLOCKS, "= 4 × 288" (00_scope.md R5, 44_cipher_driver.md R121). -/
abbrev warmupClocks : Nat := 1152

/-- CLOCKS_PER_BYTE (00_scope.md R5, 43_keystream_core.md R106). -/
abbrev clocksPerByte : Nat := 8

/-- FREE VALUE (log 9). Did byte `idx` of IN receive its new value before the host's reset cut a
CIPHER.IP short? The spec gives no claim which (70_reset_and_hazards.md R171, U6). `draw` numbers the
abandoned runs, so that two of them are independent. No body: nothing can evaluate it. -/
opaque landed : (draw idx : Nat) → Bool

end Config

/-- The open parameters of an instance (00_scope.md R6): straps, constant for the life of the instance,
written by no command and not by reset (10_state.md R15, R22). -/
structure Straps where
  /-- KIV_REV: false is policy AS_GIVEN, true is policy REVERSED (44_cipher_driver.md R120). -/
  kivRev : Bool
  /-- BUFMAX: the largest LEN a CIPHER command accepts, and the capacity of OUT. -/
  bufmax : Nat
  deriving DecidableEq, Repr

/-- 1 ≤ BUFMAX ≤ 65535 (00_scope.md R6). -/
abbrev Straps.wf (c : Straps) : Prop := 1 ≤ c.bufmax ∧ c.bufmax ≤ 65535

/-- The reference configuration of the spec: policy AS_GIVEN, BUFMAX = 64 (00_scope.md R6). -/
def Straps.reference : Straps := { kivRev := false, bufmax := 64 }

end Sys2Proof
end

