-- ==== Sys2Proof/Machine/Memory.lean ====
section
/-!
DEFINITION. One byte-addressed space (20_memory.md R30): a list of (index, byte) pairs in one canonical form, and
`MemRead`, `MemWrite` of one byte (00_scope.md R8), from which runs of bytes are read and written in index
order.
-/

namespace Sys2Proof.Machine

/-- A byte-addressed space, indexed from 0 (20_memory.md R30). -/
abbrev Memory := List Host.Cell

/-- DESIGN CHOICE (log 7, unsafe): what a byte that nothing has written reads as. -/
abbrev unlistedByte : Byte := 0x00#8

/-- The canonical form: indices strictly rising, and no entry equal to what an unlisted index reads as. -/
abbrev Memory.wf (m : Memory) : Prop :=
  (m.map Prod.fst).Pairwise (· < ·) ∧ ∀ c ∈ m, c.2 ≠ unlistedByte

/-- Every listed index lies below `size`. -/
abbrev Memory.within (size : Nat) (m : Memory) : Prop := ∀ c ∈ m, c.1 < size

/-- `MemRead(space, idx, 1)` (00_scope.md R8). -/
def Memory.read : Memory → Nat → Byte
  | [], _ => unlistedByte
  | c :: m, idx => if c.1 = idx then c.2 else Memory.read m idx

/-- Puts a byte at the head of a space whose listed indices are all above `idx`; what an unlisted byte reads as is not
listed. -/
def Memory.consByte (idx : Nat) (v : Byte) (m : Memory) : Memory :=
  if v = unlistedByte then m else (idx, v) :: m

/-- `MemWrite(space, idx, 1, v)` (00_scope.md R8). Keeps the canonical form. -/
def Memory.write : Memory → Nat → Byte → Memory
  | [], idx, v => Memory.consByte idx v []
  | c :: m, idx, v =>
    if idx < c.1 then Memory.consByte idx v (c :: m)
    else if idx = c.1 then Memory.consByte idx v m
    else c :: Memory.write m idx v

/-- The `count` bytes from index `idx` on, in index order. -/
def Memory.readBytes (m : Memory) (idx : Nat) : (count : Nat) → List Byte
  | 0 => []
  | count + 1 => m.read idx :: Memory.readBytes m (idx + 1) count

/-- Writes the bytes from index `idx` on, in index order. -/
def Memory.writeBytes (m : Memory) (idx : Nat) : List Byte → Memory
  | [] => m
  | v :: vs => Memory.writeBytes (m.write idx v) (idx + 1) vs

end Sys2Proof.Machine
end

