-- ==== Sys2Proof/Machine/State.lean ====
section
/-!
DEFINITION. The state of one instance of the core and of its host's side of the interface (10_state.md), as plain
data, and the state after reset (R22). The reasons a step can stop.
-/

namespace Sys2Proof.Machine

/-- The 36 bytes `B[0]` .. `B[35]` of the state register; its flat bits are reached by the Bit Accessor
(10_state.md R10). -/
abbrev St := Vector Byte 36

/-- The fault causes (60_exceptions.md R141). Codes 6..15 are never produced, so the type is six-valued
(93_implementation_defined.md U10, log 11). -/
inductive Cause where
  /-- No fault since reset. -/
  | none
  /-- The word matches no row of the opcode map. -/
  | illegalCmd
  /-- A declared buffer length is not what the algorithm fixes. -/
  | size
  /-- The bit offset operand is 288 or more. -/
  | offset
  /-- n = 0, k = 0, or k ≥ 36. -/
  | xwRange
  /-- The command reads the state and SV = 0. -/
  | stateInvalid
  deriving DecidableEq, Repr

/-- The three host-owned buffers (10_state.md R13, R14, 20_memory.md R30). -/
inductive HostBuffer where
  | key
  | iv
  | input
  deriving DecidableEq, Repr

/-- What the host does at the interface of an idle core (70_reset_and_hazards.md R178), other than reading. -/
inductive HostAction where
  /-- Issue one command word (30_encoding.md R50). -/
  | issue (w : CmdWord)
  /-- The reset action (R170). -/
  | reset
  /-- Issue a command word and reset before the command has completed (R171). -/
  | abandon (w : CmdWord)
  /-- Put bytes into a buffer from index 0 on and drive its descriptor to their number (30_encoding.md R56, the
  directives .key, .iv and .in). -/
  | fill (buf : HostBuffer) (bytes : List Byte)
  /-- Write one byte of a buffer (20_memory.md R39). -/
  | poke (buf : HostBuffer) (idx : Nat) (v : Byte)
  /-- Drive KLEN (10_state.md R15; the directive .klen). -/
  | driveKlen (n : BitVec 8)
  /-- Drive VLEN (10_state.md R15; the directive .vlen). -/
  | driveVlen (n : BitVec 8)
  /-- Drive LEN (10_state.md R15; the directive .len). -/
  | driveLen (n : BitVec 16)
  deriving DecidableEq, Repr

/-- The machine. The sequencer variables and the temporaries of a clock step are not here: they hold no value between
commands (10_state.md R17, R18, log 10). -/
structure State where
  /-- KIV_REV and BUFMAX (00_scope.md R6), straps of the instance; nothing writes them (log 4). -/
  cfg : Straps
  /-- ST: the 36 bytes, or no value (10_state.md R10, R12). STATUS.SV is whether it holds one (log 5). -/
  st : Option St
  /-- STATUS.FLT (10_state.md R15). -/
  flt : Bool
  /-- CAUSE (10_state.md R15). -/
  cause : Cause
  /-- FCMD (10_state.md R15). -/
  fcmd : CmdWord
  /-- RES (10_state.md R15). -/
  res : Byte
  /-- OLEN (10_state.md R15). -/
  olen : BitVec 16
  /-- KLEN (10_state.md R15). -/
  klen : BitVec 8
  /-- VLEN (10_state.md R15). -/
  vlen : BitVec 8
  /-- LEN (10_state.md R15). -/
  len : BitVec 16
  /-- The space KEY (20_memory.md R30). -/
  keyBuf : Memory
  /-- The space IV (20_memory.md R30). -/
  ivBuf : Memory
  /-- The space IN (20_memory.md R30). -/
  inBuf : Memory
  /-- The space OUT (20_memory.md R30); valid below OLEN (log 8). -/
  outBuf : Memory
  /-- The host's pending actions, the next one first (70_reset_and_hazards.md R178, log 1). -/
  host : List HostAction
  /-- The model's own: how many free values have been drawn (log 9). -/
  draws : Nat
  deriving DecidableEq, Repr

/-- The state after reset (10_state.md R22, 70_reset_and_hazards.md R170), of an instance in the reference
configuration, with the host-owned buffers empty and nothing presented on the command port (logs 1, 4, 6, 9). -/
def State.reset : State where
  cfg := Straps.reference
  st := Option.none
  flt := false
  cause := Cause.none
  fcmd := 0x0000#16
  res := 0x00#8
  olen := 0x0000#16
  klen := 0x00#8
  vlen := 0x00#8
  len := 0x0000#16
  keyBuf := []
  ivBuf := []
  inBuf := []
  outBuf := []
  host := []
  draws := 0

/-- Why the model stops. The faults of the spec (60_exceptions.md R141) are NOT here: they are next states, with FLT,
CAUSE and FCMD set. -/
inductive Fault where
  /-- Raised by the host actions `fill` and `poke` that name a byte outside what the buffer's descriptor can declare
  (log 12). Safe: the host cannot present such a buffer. No command raises it. -/
  | hostOutsideBuffer (buf : HostBuffer)
  deriving DecidableEq, Repr

/-- No meaning for an instruction. -/
inductive Refusal where
  /-- Raised by an arm of `exec` that has no meaning yet; safe. No arm raises it now. -/
  | notModelled (mnemonic : String)
  deriving DecidableEq, Repr

/-- The three outcomes of a step of this machine. -/
abbrev Result := Host.Outcome State Fault Refusal

end Sys2Proof.Machine
end

