-- ==== Sys2Proof/Machine/Flags.lean ====
section
/-!
DEFINITION. The status registers as the host sees them (10_state.md R15). The hardware has no flags and no condition
codes (R18): the two STATUS bits are all there is, and no command is conditional on a data-dependent bit.
-/

namespace Sys2Proof.Machine

/-- STATUS.SV: 1 exactly when the state holds a value (10_state.md R12). -/
def State.sv (s : State) : Bool := s.st.isSome

/-- STATUS: bit 0 SV, bit 1 FLT (10_state.md R15). -/
def State.statusWord (s : State) : BitVec 2 := BitVec.ofBool s.flt ++ BitVec.ofBool s.sv

/-- The codes of the causes (60_exceptions.md R141). -/
def Cause.code : Cause → BitVec 4
  | .none => 0#4
  | .illegalCmd => 1#4
  | .size => 2#4
  | .offset => 3#4
  | .xwRange => 4#4
  | .stateInvalid => 5#4

/-- CAUSE as the host reads it (10_state.md R15). -/
def State.causeCode (s : State) : BitVec 4 := s.cause.code

end Sys2Proof.Machine
end

