-- ==== Sys2Proof/Machine/Operands.lean ====
section
/-!
DEFINITION. The operands of the commands: the legal range of those in the command word (30_encoding.md R52), the
declared lengths (60_exceptions.md R141, SIZE), and the bytes a command takes from the host's buffers.
-/

namespace Sys2Proof.Machine

/-- A crosswrite's domain (41_crosswrite.md R80): byte `k` has a preceding byte and lies in the buffer of `L`
bytes, and the run length is 1..7. -/
abbrev XwRange (L k n : Nat) : Prop := (1 ≤ k ∧ k < L) ∧ 1 ≤ n ∧ n ≤ 7

/-- SIZE, the part common to SETUP and CIPHER: KLEN ≠ 10 or VLEN ≠ 10 (60_exceptions.md R141). -/
def State.keyIvSizeBad (s : State) : Bool :=
  s.klen.toNat != 10 || s.vlen.toNat != 10

/-- SIZE for CIPHER: besides, LEN = 0 or LEN > BUFMAX (60_exceptions.md R141, 44_cipher_driver.md R125). -/
def State.cipherSizeBad (s : State) : Bool :=
  s.keyIvSizeBad || s.len.toNat == 0 || decide (s.cfg.bufmax < s.len.toNat)

/-- Ten bytes of a space, from index 0 (42_state_initializer.md R92). -/
def tenBytes (m : Memory) : Vector Byte 10 := Vector.ofFn fun i => m.read i.val

/-- `KEY[0..9]`. -/
def State.keyBytes (s : State) : Vector Byte 10 := tenBytes s.keyBuf

/-- `IV[0..9]`. -/
def State.ivBytes (s : State) : Vector Byte 10 := tenBytes s.ivBuf

/-- `IN[0 .. LEN − 1]` (44_cipher_driver.md R125). -/
def State.inBytes (s : State) : List Byte := s.inBuf.readBytes 0 s.len.toNat

end Sys2Proof.Machine
end

