-- ==== Sys2Proof/Machine/Ops.lean ====
section
/-!
DEFINITION. The shared operations over the state: named updates, taking a fault, the sticky refusal, reading ST
under SV, and reset, which is the only return from a fault (60_exceptions.md R144 to R146).
-/

namespace Sys2Proof.Machine

/-! ### Named updates -/

/-- ST gets a value, and with it SV = 1. -/
def State.setSt (s : State) (b : St) : State := { s with st := some b }

/-- The state is discarded: SV = 0 and the 288 bits hold no value (44_cipher_driver.md R131). -/
def State.discardSt (s : State) : State := { s with st := Option.none }

/-- `RES <- v` (00_scope.md R8). -/
def State.setRes (s : State) (v : Byte) : State := { s with res := v }

/-- The space IN gets new contents. -/
def State.setIn (s : State) (m : Memory) : State := { s with inBuf := m }

/-- The space OUT gets new contents and OLEN its number of valid bytes. -/
def State.setOut (s : State) (m : Memory) (n : BitVec 16) : State := { s with outBuf := m, olen := n }

/-- The three fault registers (60_exceptions.md R144). -/
def State.recordFault (s : State) (c : Cause) (w : CmdWord) : State :=
  { s with flt := true, cause := c, fcmd := w }

/-- The host's pending actions. -/
def State.setHost (s : State) (h : List HostAction) : State := { s with host := h }

/-! ### Taking a fault, and the sticky refusal -/

/-- Fault entry (60_exceptions.md R144): FLT, CAUSE and FCMD are written and nothing else changes. It is a next state;
control goes nowhere. -/
def raise (c : Cause) (w : CmdWord) (s : State) : Result := .next (s.recordFault c w)

/-- While FLT = 1 a command "has no effect at all" (60_exceptions.md R145), which comes before every other check (R143,
step 1). -/
def unlessFaulted (s : State) (run : Result) : Result := if s.flt then .next s else run

/-- Runs a command on the 36 bytes of ST; with SV = 0 it raises STATE_INVALID (60_exceptions.md R141). `i` is the command,
whose word FCMD would record. -/
def onState (i : Instr) (s : State) (run : St → State) : Result :=
  match s.st with
  | Option.none => raise .stateInvalid (encode i) s
  | some b => .next (run b)

/-! ### Reset -/

/-- The reset action on the core's own state (70_reset_and_hazards.md R170, 10_state.md R22). Host-owned buffers,
descriptors, straps and the host's pending actions stay; OUT has no valid byte (log 8). -/
def State.resetCore (s : State) : State :=
  { s with
    st := Option.none, flt := false, cause := .none, fcmd := 0x0000#16, res := 0x00#8, olen := 0x0000#16, outBuf := [] }

/-! ### What the host reads (20_memory.md R39, R37: no read changes anything) -/

/-- The host reads `B[k]`: offered when SV = 1 (20_memory.md R39); with SV = 0 there is no value (U1). -/
def State.readSt (s : State) (k : Nat) : Option Byte :=
  match s.st with
  | Option.none => Option.none
  | some b => b[k]?

/-- The host reads `OUT[idx]`: offered below OLEN (20_memory.md R39); at or beyond it there is no value (U5). -/
def State.readOut (s : State) (idx : Nat) : Option Byte :=
  if idx < s.olen.toNat then some (s.outBuf.read idx) else Option.none

end Sys2Proof.Machine
end

