-- ==== Sys2Proof/Machine/Crosswrite.lean ====
section
/-!
DEFINITION. The Crosswrite Shifter (41_crosswrite.md): the forward and the backward crosswrite over any byte buffer, and the
commands XWF and XWB on the state. Outside their domain the functions are not defined (U3): they take a proof of it.
-/

namespace Sys2Proof.Machine

/-- `xwf(buf, k, n)` (41_crosswrite.md R80): both new bytes are computed from the old values p and s. -/
def xwf {L : Nat} (buf : Vector Byte L) (k n : Nat) (h : XwRange L k n) : Vector Byte L :=
  let p := buf[k - 1]'(by omega)
  let s := buf[k]'h.1.2
  (buf.set k ((s &&& (0xFF#8 >>> n)) ||| (p <<< (8 - n))) h.1.2).set (k - 1) (p >>> n) (by omega)

/-- `xwb(buf, k, n)` (41_crosswrite.md R81): both new bytes are computed from the old values p and s. -/
def xwb {L : Nat} (buf : Vector Byte L) (k n : Nat) (h : XwRange L k n) : Vector Byte L :=
  let p := buf[k - 1]'(by omega)
  let s := buf[k]'h.1.2
  (buf.set (k - 1) ((p &&& (0xFF#8 <<< n)) ||| (s >>> (8 - n))) (by omega)).set k (s <<< n) h.1.2

/-- XWF k, n (41_crosswrite.md R82). -/
def execXwf (k : BitVec 6) (n : BitVec 3) (s : State) : Result :=
  unlessFaulted s <|
    if h : XwRange 36 k.toNat n.toNat then
      onState (.xwf k n) s fun b => s.setSt (xwf b k.toNat n.toNat h)
    else raise .xwRange (encode (.xwf k n)) s

/-- XWB k, n (41_crosswrite.md R83). -/
def execXwb (k : BitVec 6) (n : BitVec 3) (s : State) : Result :=
  unlessFaulted s <|
    if h : XwRange 36 k.toNat n.toNat then
      onState (.xwb k n) s fun b => s.setSt (xwb b k.toNat n.toNat h)
    else raise .xwRange (encode (.xwb k n)) s

end Sys2Proof.Machine
end

