-- ==== Sys2Proof/Machine/Initializer.lean ====
section
/-!
DEFINITION. The State Initializer (42_state_initializer.md): the construction as the spec's five-step procedure (R90), and the
command SETUP. The printed bit ranges of the source lose to its procedure (90_conflicts.md C1).
-/

namespace Sys2Proof.Machine

/-- `for k = lo to lo + count − 1: B[k] <- 0x00` (42_state_initializer.md R90, steps 2 to 4). -/
def zeroBytes (b : St) (lo : Nat) : (count : Nat) → lo + count ≤ 36 → St
  | 0, _ => b
  | count + 1, h => (zeroBytes b lo count (by omega)).set (lo + count) 0x00#8 (by omega)

/-- Step 1 of `setup`: `for i = 0 to 9: B[i] <- K[i]` (42_state_initializer.md R90), the first `count` rounds. -/
def placeKey (b : St) (K : Vector Byte 10) : (count : Nat) → count ≤ 10 → St
  | 0, _ => b
  | count + 1, h => (placeKey b K count (by omega)).set count (K[count]'h) (by omega)

/-- Step 3 of `setup`: `for i = 0 to 9: B[12 + i] <- V[i]; B <- xwb(B, 12 + i, 3)`, interleaved and ascending
(42_state_initializer.md R90), the first `count` rounds. -/
def placeIv (b : St) (V : Vector Byte 10) : (count : Nat) → count ≤ 10 → St
  | 0, _ => b
  | count + 1, h =>
    xwb ((placeIv b V count (by omega)).set (12 + count) (V[count]'h) (by omega)) (12 + count) 3
      ⟨⟨by omega, by omega⟩, by decide⟩

/-- The procedure of 42_state_initializer.md R90, run over the bytes the register held before. -/
def setupOver (b : St) (K V : Vector Byte 10) : St :=
  let b := placeKey b K 10 (by decide)
  let b := zeroBytes b 10 1 (by decide)
  let b := zeroBytes b 11 1 (by decide)
  let b := placeIv b V 10 (by decide)
  let b := zeroBytes b 22 13 (by decide)
  b.set 35 0x07#8

/-- `setup(K, V)` (42_state_initializer.md R90). It "does not depend on any earlier content of the state": the register the
procedure starts from has no value, and every one of its bytes is written. -/
def setup (K V : Vector Byte 10) : St := setupOver (Vector.replicate 36 0x00#8) K V

/-- SETUP (42_state_initializer.md R92): it needs no valid state, applies no byte-order reversal, and ignores LEN. -/
def execSetup (s : State) : Result :=
  unlessFaulted s <|
    if s.keyIvSizeBad then raise .size (encode .setup) s
    else .next (s.setSt (setup s.keyBytes s.ivBytes))

end Sys2Proof.Machine
end

