-- ==== Sys2Proof/Machine/BitAccessor.lean ====
section
/-!
DEFINITION. The Bit Accessor (40_bit_accessor.md): `getbit` and `putbit` over any byte buffer, and the commands GETBIT and
PUTBIT on the state. The functions are partial in the spec (U2): they take a proof that the offset is in range.
-/

namespace Sys2Proof.Machine

/-- `getbit(buf, off) = (buf[off div 8] >> (7 − (off mod 8))) & 1` (40_bit_accessor.md R70). -/
def getbit {L : Nat} (buf : Vector Byte L) (off : Nat) (h : off < 8 * L := by decide) : Bool :=
  ((buf[off / 8]'(by omega) >>> (7 - off % 8)) &&& 0x01#8) == 0x01#8

/-- The mask `m = 0x80 >> (off mod 8)` of `putbit` (40_bit_accessor.md R71). -/
def bitMask (off : Nat) : Byte := 0x80#8 >>> (off % 8)

/-- `putbit(buf, off, v)`: byte `off div 8` becomes `(buf[off div 8] & (0xFF − m)) | (m if v = 1 else 0)`
(40_bit_accessor.md R71). -/
def putbit {L : Nat} (buf : Vector Byte L) (off : Nat) (v : Bool) (h : off < 8 * L := by decide) : Vector Byte L :=
  buf.set (off / 8)
    ((buf[off / 8]'(by omega) &&& (0xFF#8 - bitMask off)) ||| (if v then bitMask off else 0x00#8)) (by omega)

/-- GETBIT off (40_bit_accessor.md R72). -/
def execGetbit (off : BitVec 9) (s : State) : Result :=
  unlessFaulted s <|
    if h : off.toNat < 8 * 36 then
      onState (.getbit off) s fun b => s.setRes (zext8 (getbit b off.toNat h))
    else raise .offset (encode (.getbit off)) s

/-- PUTBIT off, v (40_bit_accessor.md R73). -/
def execPutbit (off : BitVec 9) (v : Bool) (s : State) : Result :=
  unlessFaulted s <|
    if h : off.toNat < 8 * 36 then
      onState (.putbit off v) s fun b => s.setSt (putbit b off.toNat v h)
    else raise .offset (encode (.putbit off v)) s

end Sys2Proof.Machine
end

