-- ==== Sys2Proof/Machine/Keystream.lean ====
section
/-!
DEFINITION. The Keystream Core (43_keystream_core.md): the tap network, the clear-and-rotate, the clock step, the keystream
byte, and the commands ROT1, CLOCK, KSBYTE.
-/

namespace Sys2Proof.Machine

/-- The seven values of the tap network; `f1`, `f2`, `f3` are the feedback bits t1', t2', t3' (43_keystream_core.md R100).
Temporaries of one clock step, not state (10_state.md R18). -/
structure Taps where
  t1 : Bool
  t2 : Bool
  t3 : Bool
  z : Bool
  f1 : Bool
  f2 : Bool
  f3 : Bool
  deriving DecidableEq, Repr

/-- `taps(S)`, read on the state as it is before the step (43_keystream_core.md R100, R108). -/
def taps (b : St) : Taps :=
  let t1 := getbit b 65 ^^ getbit b 92
  let t2 := getbit b 161 ^^ getbit b 176
  let t3 := getbit b 242 ^^ getbit b 287
  { t1 := t1
    t2 := t2
    t3 := t3
    z := t1 ^^ t2 ^^ t3
    f1 := t1 ^^ (getbit b 90 && getbit b 91) ^^ getbit b 170
    f2 := t2 ^^ (getbit b 174 && getbit b 175) ^^ getbit b 263
    f3 := t3 ^^ (getbit b 285 && getbit b 286) ^^ getbit b 68 }

/-- `for k = count downto 1: B <- xwf(B, k, 1)` (43_keystream_core.md R101). -/
def carryDown (b : St) : (count : Nat) → count < 36 → St
  | 0, _ => b
  | count + 1, h => carryDown (xwf b (count + 1) 1 ⟨⟨by omega, h⟩, by decide⟩) count (by omega)

/-- `rot1(B)`: clear bit 287, shift byte 35, then the forward crosswrites from the last byte to the first
(43_keystream_core.md R101; the direction is 90_conflicts.md C2). -/
def rot1 (b : St) : St :=
  let b := putbit b 287 false
  let b := b.set 35 (b[35] >>> 1)
  carryDown b 35 (by decide)

/-- `clock(B)`: the emitted bit z and the new state, offset 0 getting t3', 93 getting t1', 177 getting t2'
(43_keystream_core.md R103). -/
def clock (b : St) : Bool × St :=
  let t := taps b
  let b := rot1 b
  let b := putbit b 0 t.f3
  let b := putbit b 93 t.f1
  let b := putbit b 177 t.f2
  (t.z, b)

/-- The loop of `ksbyte` with the sequencer's accumulator `acc` (43_keystream_core.md R106, 10_state.md R17), the last
`count` of the eight clocks. -/
def ksbyteFrom (acc : Byte) (b : St) : (count : Nat) → Byte × St
  | 0 => (acc, b)
  | count + 1 => ksbyteFrom ((acc <<< 1) ||| zext8 (clock b).1) (clock b).2 count

/-- `ksbyte(B)`: eight clocks, the first clock's bit most significant (43_keystream_core.md R106). -/
def ksbyte (b : St) : Byte × St := ksbyteFrom 0x00#8 b Config.clocksPerByte

/-- `clock^count(B)`, the emitted bits discarded (00_scope.md R8, 44_cipher_driver.md R121). -/
def iterateClock : (count : Nat) → St → St
  | 0, b => b
  | count + 1, b => iterateClock count (clock b).2

/-- ROT1 (43_keystream_core.md R102). -/
def execRot1 (s : State) : Result :=
  unlessFaulted s <| onState .rot1 s fun b => s.setSt (rot1 b)

/-- CLOCK (43_keystream_core.md R104). -/
def execClock (s : State) : Result :=
  unlessFaulted s <| onState .clock s fun b => (s.setSt (clock b).2).setRes (zext8 (clock b).1)

/-- KSBYTE (43_keystream_core.md R107). -/
def execKsbyte (s : State) : Result :=
  unlessFaulted s <| onState .ksbyte s fun b => (s.setSt (ksbyte b).2).setRes (ksbyte b).1

end Sys2Proof.Machine
end

