-- ==== Sys2Proof/Machine/Cipher.lean ====
section
/-!
DEFINITION. The Cipher Driver (44_cipher_driver.md): the key and IV byte order, the warm-up, the XOR stage, the function
`cipher`, and the commands WARMUP, CIPHER.IP, CIPHER.CP.
-/

namespace Sys2Proof.Machine

/-- `order(X)`: the ten bytes as given, or from last to first when KIV_REV is true; the bits inside a byte keep their
order (44_cipher_driver.md R120). -/
def order (kivRev : Bool) (X : Vector Byte 10) : Vector Byte 10 :=
  if kivRev then Vector.ofFn fun i => X[9 - i.val]'(by omega) else X

/-- `warmup(B) = clock^1152(B)` (44_cipher_driver.md R121). -/
def warmup (b : St) : St := iterateClock Config.warmupClocks b

/-- The XOR stage: one keystream byte for each byte of the input, in ascending order (44_cipher_driver.md R123). -/
def xorStage : List Byte → St → List Byte × St
  | [], b => ([], b)
  | m :: ms, b =>
    let (ks, b) := ksbyte b
    let (cs, b) := xorStage ms b
    ((m ^^^ ks) :: cs, b)

/-- `cipher(K, V, M)`: the result bytes and the final state (44_cipher_driver.md R124). -/
def cipher (kivRev : Bool) (K V : Vector Byte 10) (M : List Byte) : List Byte × St :=
  xorStage M (warmup (setup (order kivRev K) (order kivRev V)))

/-- The bytes `C[0 .. LEN − 1]` a CIPHER command computes from the host's buffers (44_cipher_driver.md R125). -/
def State.cipherBytes (s : State) : List Byte := (cipher s.cfg.kivRev s.keyBytes s.ivBytes s.inBytes).1

/-- WARMUP (44_cipher_driver.md R122): RES is unchanged. -/
def execWarmup (s : State) : Result :=
  unlessFaulted s <| onState .warmup s fun b => s.setSt (warmup b)

/-- CIPHER.IP (44_cipher_driver.md R125, R131): builds its own state whatever SV was, and discards it. -/
def execCipherIp (s : State) : Result :=
  unlessFaulted s <|
    if s.cipherSizeBad then raise .size (encode .cipherIp) s
    else .next (s.setIn (s.inBuf.writeBytes 0 s.cipherBytes)).discardSt

/-- CIPHER.CP (44_cipher_driver.md R126, R131): IN is unchanged, OLEN becomes LEN. -/
def execCipherCp (s : State) : Result :=
  unlessFaulted s <|
    if s.cipherSizeBad then raise .size (encode .cipherCp) s
    else .next (s.setOut (s.outBuf.writeBytes 0 s.cipherBytes) s.len).discardSt

end Sys2Proof.Machine
end

