-- ==== Sys2Proof/Machine/Dispatch.lean ====
section
/-!
DEFINITION. Which meaning each command has: one arm per constructor of `Instr`.
-/

namespace Sys2Proof.Machine

def exec (i : Instr) (s : State) : Host.Outcome State Fault Refusal :=
  match i with
  | .getbit off => Sys2Proof.Machine.execGetbit off s
  | .putbit off v => Sys2Proof.Machine.execPutbit off v s
  | .xwf k n => Sys2Proof.Machine.execXwf k n s
  | .xwb k n => Sys2Proof.Machine.execXwb k n s
  | .setup => Sys2Proof.Machine.execSetup s
  | .rot1 => Sys2Proof.Machine.execRot1 s
  | .clock => Sys2Proof.Machine.execClock s
  | .ksbyte => Sys2Proof.Machine.execKsbyte s
  | .warmup => Sys2Proof.Machine.execWarmup s
  | .cipherIp => Sys2Proof.Machine.execCipherIp s
  | .cipherCp => Sys2Proof.Machine.execCipherCp s

end Sys2Proof.Machine
end

