-- ==== Sys2Proof/Machine/HostPort.lean ====
section
/-!
DEFINITION. What each host action does (70_reset_and_hazards.md R178): issuing a command word, reset, abandoning a command
by reset, filling buffers and driving descriptors.
-/

namespace Sys2Proof.Machine

/-- Issue a command word (30_encoding.md R50): the command it decodes to runs; a word that is no command raises ILLEGAL_CMD
(R54), unless the core is already faulted (60_exceptions.md R143, R145). -/
def issueWord (w : CmdWord) (s : State) : Result :=
  match decode w with
  | .ok i => exec i s
  | .error _ => unlessFaulted s (raise .illegalCmd w s)

/-- Each byte of IN under an abandoned CIPHER.IP is old or new (93_implementation_defined.md U6): new where the free value
`Config.landed` says so (log 9). -/
def partlyLanded (draw idx : Nat) : (old new : List Byte) → List Byte
  | o :: old, n :: new => (if Config.landed draw idx then n else o) :: partlyLanded draw (idx + 1) old new
  | _, _ => []

/-- The space IN after a CIPHER.IP that the host abandoned (70_reset_and_hazards.md R171). -/
def State.abandonedIn (s : State) : Memory :=
  s.inBuf.writeBytes 0 (partlyLanded s.draws 0 s.inBytes s.cipherBytes)

/-- Reset before the command `w` has completed (70_reset_and_hazards.md R171): the core ends in the reset state; a CIPHER.IP
that had not faulted may have written any of its bytes of IN; no other command writes a host-owned buffer. -/
def abandonWord (w : CmdWord) (s : State) : State :=
  match decode w with
  | .ok .cipherIp =>
    if s.flt || s.cipherSizeBad then s.resetCore
    else { s.resetCore with inBuf := s.abandonedIn, draws := s.draws + 1 }
  | _ => s.resetCore

/-- The largest length the descriptor of a buffer can declare: KLEN and VLEN have 8 bits, LEN has 16 (10_state.md R15). -/
def HostBuffer.maxLen : HostBuffer → Nat
  | .key => 255
  | .iv => 255
  | .input => 65535

/-- The contents of a host-owned buffer. -/
def State.hostBuf (s : State) : HostBuffer → Memory
  | .key => s.keyBuf
  | .iv => s.ivBuf
  | .input => s.inBuf

/-- A host-owned buffer gets new contents. -/
def State.setHostBuf (s : State) (buf : HostBuffer) (m : Memory) : State :=
  match buf with
  | .key => { s with keyBuf := m }
  | .iv => { s with ivBuf := m }
  | .input => { s with inBuf := m }

/-- The descriptor of a host-owned buffer is driven to `n`. -/
def State.driveLength (s : State) (buf : HostBuffer) (n : Nat) : State :=
  match buf with
  | .key => { s with klen := BitVec.ofNat 8 n }
  | .iv => { s with vlen := BitVec.ofNat 8 n }
  | .input => { s with len := BitVec.ofNat 16 n }

/-- Fill a buffer from index 0 and drive its descriptor to the number of bytes (30_encoding.md R56, log 13). More bytes than
the descriptor can declare stop the run (log 12). -/
def fillBuffer (buf : HostBuffer) (bytes : List Byte) (s : State) : Result :=
  if bytes.length ≤ buf.maxLen then
    .next ((s.setHostBuf buf ((s.hostBuf buf).writeBytes 0 bytes)).driveLength buf bytes.length)
  else .fault (.hostOutsideBuffer buf)

/-- Write one byte of a buffer (20_memory.md R39). An index no descriptor can declare stops the run (log 12). -/
def pokeBuffer (buf : HostBuffer) (idx : Nat) (v : Byte) (s : State) : Result :=
  if idx < buf.maxLen then .next (s.setHostBuf buf ((s.hostBuf buf).write idx v))
  else .fault (.hostOutsideBuffer buf)

/-- One host action on an idle core (70_reset_and_hazards.md R178). Buffers and descriptors may be written whether or not a
fault is latched: they are the host's own. -/
def hostAct (a : HostAction) (s : State) : Result :=
  match a with
  | .issue w => issueWord w s
  | .reset => .next s.resetCore
  | .abandon w => .next (abandonWord w s)
  | .fill buf bytes => fillBuffer buf bytes s
  | .poke buf idx v => pokeBuffer buf idx v s
  | .driveKlen n => .next { s with klen := n }
  | .driveVlen n => .next { s with vlen := n }
  | .driveLen n => .next { s with len := n }

/-- The next host action is taken from the head of the pending ones; with none pending the core stays idle and nothing
changes (log 3). -/
def takeAction (s : State) : Result :=
  match s.host with
  | [] => .next s
  | a :: rest => hostAct a (s.setHost rest)

end Sys2Proof.Machine
end

