-- ==== Sys2Proof/Machine/Step.lean ====
section
/-!
DEFINITION. One step of the machine: the next host interaction, a command running to completion within it
(20_memory.md R40). There is no program counter and no fetch from memory (10_state.md R17, 20_memory.md R44): the next
command is the word the host presents next.
-/

namespace Sys2Proof.Machine

/-- One step. -/
def step (s : State) : Host.Outcome State Fault Refusal := takeAction s

/-- `s` with an opcode-table word as the next word on the command port (log 2). -/
def State.withFetchWord (s : State) (nbits w : Nat) : State := { s with host := .issue (tableWord nbits w) :: s.host }

end Sys2Proof.Machine
end

