-- ==== Sys2Proof/Safety.lean ====
section
/-!
DEFINITION. The terms claims about this machine are made in: reading a flat bit by its number, when a command faults and with
which cause (60_exceptions.md R141 to R143), the invariant of a state, and what a successful run is (R181).
-/

namespace Sys2Proof.Machine

/-- `S[i]` by its number (00_scope.md R8), for statements that speak of many offsets at once; an offset outside the buffer,
which no statement names, counts as 0. -/
def bitAt {L : Nat} (b : Vector Byte L) (i : Nat) : Bool := if h : i < 8 * L then getbit b i h else false

/-- The all-zero register. -/
def zeroSt : St := Vector.replicate 36 0x00#8

/-- `K` is what the host holds in the first ten bytes of a buffer. -/
abbrev TenBytesOf (m : Memory) (K : Vector Byte 10) : Prop := ∀ i (h : i < 10), K[i] = m.read i

/-- `M` is what the host holds in the first `n` bytes of a buffer. -/
abbrev BytesOf (m : Memory) (n : Nat) (M : List Byte) : Prop :=
  M.length = n ∧ ∀ i (h : i < M.length), M[i] = m.read i

/-- The lengths SETUP requires (42_state_initializer.md R92). -/
abbrev State.keyIvSizeOk (s : State) : Prop := s.klen = 10#8 ∧ s.vlen = 10#8

/-- The lengths a CIPHER command requires (44_cipher_driver.md R125). -/
abbrev State.cipherSizeOk (s : State) : Prop :=
  s.keyIvSizeOk ∧ 1 ≤ s.len.toNat ∧ s.len.toNat ≤ s.cfg.bufmax

/-! ### When a command faults (60_exceptions.md R141 to R143), on the numbers of the command word -/

/-- The word's opcode `cmd[15:12]`. -/
abbrev opcodeOf (w : CmdWord) : Nat := w.toNat / 4096

/-- No row of 30_encoding.md R53 matches (ILLEGAL_CMD). -/
abbrev isIllegalWord (w : CmdWord) : Prop := ∀ r ∈ opcodeMap, ¬ r.isMatch w

/-- GETBIT or PUTBIT with off ≥ 288 (OFFSET). -/
abbrev hasBadOffset (w : CmdWord) : Prop := opcodeOf w ∈ [0x1, 0x2] ∧ 288 ≤ w.toNat % 512

/-- XWF or XWB with n = 0, k = 0 or k ≥ 36 (XW_RANGE). -/
abbrev hasBadCrosswrite (w : CmdWord) : Prop :=
  opcodeOf w ∈ [0x3, 0x4] ∧ (w.toNat / 64 % 8 = 0 ∨ w.toNat % 64 = 0 ∨ 36 ≤ w.toNat % 64)

/-- SETUP or CIPHER with a declared length that is not what the algorithm fixes (SIZE). -/
abbrev hasBadSize (w : CmdWord) (s : State) : Prop :=
  (opcodeOf w ∈ [0x5, 0xA, 0xB] ∧ (s.klen ≠ 10#8 ∨ s.vlen ≠ 10#8)) ∨
    (opcodeOf w ∈ [0xA, 0xB] ∧ (s.len = 0#16 ∨ s.cfg.bufmax < s.len.toNat))

/-- A command that reads the state, while it holds no value (STATE_INVALID). -/
abbrev lacksState (w : CmdWord) (s : State) : Prop :=
  opcodeOf w ∈ [0x1, 0x2, 0x3, 0x4, 0x6, 0x7, 0x8, 0x9] ∧ s.sv = false

/-- The one cause a word reports on an unfaulted core, by the priority of 60_exceptions.md R143, steps 2 to 5; NONE when the
command raises nothing. -/
def expectedCause (w : CmdWord) (s : State) : Cause :=
  if isIllegalWord w then .illegalCmd
  else if hasBadOffset w then .offset
  else if hasBadCrosswrite w then .xwRange
  else if hasBadSize w s then .size
  else if lacksState w s then .stateInvalid
  else .none

/-- Which causes a recorded command word can go with (60_exceptions.md R142). -/
def faultAllowed (w : CmdWord) (c : Cause) : Bool :=
  match decode w with
  | .error _ => c == .illegalCmd
  | .ok (.getbit off) => c == if off.toNat < 288 then .stateInvalid else .offset
  | .ok (.putbit off _) => c == if off.toNat < 288 then .stateInvalid else .offset
  | .ok (.xwf k n) => c == if (Instr.xwf k n).wf then .stateInvalid else .xwRange
  | .ok (.xwb k n) => c == if (Instr.xwb k n).wf then .stateInvalid else .xwRange
  | .ok .setup => c == .size
  | .ok .rot1 => c == .stateInvalid
  | .ok .clock => c == .stateInvalid
  | .ok .ksbyte => c == .stateInvalid
  | .ok .warmup => c == .stateInvalid
  | .ok .cipherIp => c == .size
  | .ok .cipherCp => c == .size

/-- Issuing any such word to an unfaulted core raises ILLEGAL_CMD (30_encoding.md R54): the word is consumed, and the three
fault registers are all that changes. -/
abbrev IllegalWhen (P : CmdWord → Prop) : Prop :=
  ∀ (s : State) (w : CmdWord) (rest : List HostAction), P w → s.flt = false → s.host = .issue w :: rest →
    step s = .next { s with host := rest, flt := true, cause := .illegalCmd, fcmd := w }

/-! ### The invariant -/

/-- What holds of every state of an instance: the straps are legal (00_scope.md R6); the four buffers are in canonical form and
within their bounds (20_memory.md R30, R38); OLEN ≤ BUFMAX (10_state.md R15); without a fault CAUSE and FCMD are as reset
leaves them, and with one they hold a fault the recorded word can raise (10_state.md R15, 60_exceptions.md R142). -/
structure State.Inv (s : State) : Prop where
  straps : s.cfg.wf
  keyWf : s.keyBuf.wf
  ivWf : s.ivBuf.wf
  inWf : s.inBuf.wf
  outWf : s.outBuf.wf
  keyWithin : s.keyBuf.within 255
  ivWithin : s.ivBuf.within 255
  inWithin : s.inBuf.within 65535
  outWithin : s.outBuf.within s.cfg.bufmax
  olenLe : s.olen.toNat ≤ s.cfg.bufmax
  noFault : s.flt = false → s.cause = .none ∧ s.fcmd = 0#16
  faulted : s.flt = true → faultAllowed s.fcmd s.cause = true

/-! ### Runs -/

/-- `n` steps, whatever happens in them but a stop of the model: also past a command that faults, as a host may go on to a
reset (95_test_vectors.md program P5). -/
def runSteps : (n : Nat) → State → Result
  | 0, s => .next s
  | n + 1, s =>
    match step s with
    | .next t => runSteps n t
    | .fault r => .fault r
    | .refused r => .refused r

/-- How a run of a program ends (70_reset_and_hazards.md R181), with its last state. -/
inductive RunEnd where
  /-- The last command has completed, and none faulted. -/
  | completed (last : State)
  /-- A command faulted, or was refused because a fault is latched (60_exceptions.md R145): the run goes no further. -/
  | faulted (last : State)
  /-- The host abandoned a command by reset (R171): it neither completed nor faulted (log 15). -/
  | abandoned (last : State)
  /-- The model's own stop (log 12). -/
  | stopped (r : Fault)
  /-- No meaning for an instruction; nothing raises it. -/
  | refused (r : Refusal)
  deriving DecidableEq, Repr

/-- The host's next action abandons a command. -/
def State.abandonsNext (s : State) : Bool :=
  match s.host with
  | .abandon _ :: _ => true
  | _ => false

/-- The run of the next `n` host interactions (70_reset_and_hazards.md R181). It ends where a fault is latched: what the host does
after that, a reset included, belongs to no run but the next one (log 15). -/
def runProgram : (n : Nat) → State → RunEnd
  | 0, s => if s.flt then .faulted s else .completed s
  | n + 1, s =>
    if s.flt then .faulted s
    else match step s with
      | .next t => if s.abandonsNext then .abandoned t else runProgram n t
      | .fault r => .stopped r
      | .refused r => .refused r

/-- A successful run: its last command completed and no command faulted (70_reset_and_hazards.md R181). -/
def SuccessfulRun (n : Nat) (s t : State) : Prop := runProgram n s = .completed t

end Sys2Proof.Machine
end

