-- ==== Sys2Proof/Certificates/Slice0/Obligations.lean ====
section
/-!
DEFINITION. The statements for the provers. Each docstring names the rule of spec/ it formalises. `S[i]` is `bitAt b i`, and the
result of a command is stated as the whole next state, so that what it leaves unchanged is stated too.
-/

open Sys2Proof Sys2Proof.Machine

/-! ### Encoding (30_encoding.md) -/

/-- R53: the eleven rows, "a word w is the command exactly when w & mask = match", and the encoding of a command from its
operands. -/
def Obligations.OpcodeMapMatchAndMask : Prop :=
  (∀ w : CmdWord,
    ((∃ off, decode w = .ok (.getbit off)) ↔ w &&& 0xFE00#16 = 0x1000#16) ∧
    ((∃ off v, decode w = .ok (.putbit off v)) ↔ w &&& 0xFC00#16 = 0x2000#16) ∧
    ((∃ k n, decode w = .ok (.xwf k n)) ↔ w &&& 0xFE00#16 = 0x3000#16) ∧
    ((∃ k n, decode w = .ok (.xwb k n)) ↔ w &&& 0xFE00#16 = 0x4000#16) ∧
    (decode w = .ok .setup ↔ w &&& 0xFFFF#16 = 0x5000#16) ∧
    (decode w = .ok .rot1 ↔ w &&& 0xFFFF#16 = 0x6000#16) ∧
    (decode w = .ok .clock ↔ w &&& 0xFFFF#16 = 0x7000#16) ∧
    (decode w = .ok .ksbyte ↔ w &&& 0xFFFF#16 = 0x8000#16) ∧
    (decode w = .ok .warmup ↔ w &&& 0xFFFF#16 = 0x9000#16) ∧
    (decode w = .ok .cipherIp ↔ w &&& 0xFFFF#16 = 0xA000#16) ∧
    (decode w = .ok .cipherCp ↔ w &&& 0xFFFF#16 = 0xB000#16)) ∧
  (∀ off : BitVec 9, (encode (.getbit off)).toNat = 0x1000 + off.toNat) ∧
  (∀ (off : BitVec 9) (v : Bool), (encode (.putbit off v)).toNat = 0x2000 + 512 * v.toNat + off.toNat) ∧
  (∀ (k : BitVec 6) (n : BitVec 3), (encode (.xwf k n)).toNat = 0x3000 + 64 * n.toNat + k.toNat) ∧
  (∀ (k : BitVec 6) (n : BitVec 3), (encode (.xwb k n)).toNat = 0x4000 + 64 * n.toNat + k.toNat) ∧
  encode .setup = 0x5000#16 ∧ encode .rot1 = 0x6000#16 ∧ encode .clock = 0x7000#16 ∧ encode .ksbyte = 0x8000#16 ∧
  encode .warmup = 0x9000#16 ∧ encode .cipherIp = 0xA000#16 ∧ encode .cipherCp = 0xB000#16

/-- From R51, R53: no bit of an operand is lost in its encoding, for every command and every value of its operands. -/
def Obligations.DecodeOfEncodeIsTheInstruction : Prop :=
  ∀ i : Instr, decode (encode i) = .ok i

/-- From R51, R53: every word that decodes is the encoding of what it decodes to, so each word has one meaning. -/
def Obligations.EncodeOfDecodedIsTheWord : Prop :=
  ∀ (w : CmdWord) (i : Instr), decode w = .ok i → encode i = w

/-- R54: a word that matches no row raises ILLEGAL_CMD, among them every word with opcode 0x0 or 0xC..0xF and every word with an
assigned opcode and a must-be-zero bit set; a word that matches a row and carries an operand out of range is not illegal, its
fault is OFFSET or XW_RANGE. -/
def Obligations.IllegalWordsRaiseIllegalCmd : Prop :=
  IllegalWhen isIllegalWord ∧
  IllegalWhen (fun w => opcodeOf w = 0x0 ∨ 0xC ≤ opcodeOf w) ∧
  IllegalWhen (fun w => opcodeOf w ∈ [0x1, 0x3, 0x4] ∧ w.toNat / 512 % 8 ≠ 0) ∧
  IllegalWhen (fun w => opcodeOf w = 0x2 ∧ w.toNat / 1024 % 4 ≠ 0) ∧
  IllegalWhen (fun w => 0x5 ≤ opcodeOf w ∧ opcodeOf w ≤ 0xB ∧ w.toNat % 4096 ≠ 0) ∧
  ∀ (s : State) (w : CmdWord) (rest : List HostAction) (i : Instr),
    s.flt = false → s.host = .issue w :: rest → decode w = .ok i → i.wf = false →
    ∃ c, (c = Cause.offset ∨ c = Cause.xwRange) ∧
      step s = .next { s with host := rest, flt := true, cause := c, fcmd := w }

/-- R52: every field is an unsigned natural taken from its bits; out of its legal range `off` raises OFFSET, `k` and `n` raise
XW_RANGE. -/
def Obligations.OperandFieldsAndTheirRanges : Prop :=
  (∀ (w : CmdWord) (off : BitVec 9), decode w = .ok (.getbit off) → off.toNat = w.toNat % 512) ∧
  (∀ (w : CmdWord) (off : BitVec 9) (v : Bool), decode w = .ok (.putbit off v) →
    off.toNat = w.toNat % 512 ∧ v.toNat = w.toNat / 512 % 2) ∧
  (∀ (w : CmdWord) (k : BitVec 6) (n : BitVec 3), decode w = .ok (.xwf k n) ∨ decode w = .ok (.xwb k n) →
    k.toNat = w.toNat % 64 ∧ n.toNat = w.toNat / 64 % 8) ∧
  (∀ (s : State) (off : BitVec 9) (v : Bool), s.flt = false → 288 ≤ off.toNat →
    exec (.getbit off) s = .next { s with flt := true, cause := .offset, fcmd := encode (.getbit off) } ∧
    exec (.putbit off v) s = .next { s with flt := true, cause := .offset, fcmd := encode (.putbit off v) }) ∧
  (∀ (s : State) (k : BitVec 6) (n : BitVec 3), s.flt = false → (k.toNat = 0 ∨ 36 ≤ k.toNat ∨ n.toNat = 0) →
    exec (.xwf k n) s = .next { s with flt := true, cause := .xwRange, fcmd := encode (.xwf k n) } ∧
    exec (.xwb k n) s = .next { s with flt := true, cause := .xwRange, fcmd := encode (.xwb k n) })

/-- Words the spec writes out (95_test_vectors.md sections 2, 3 and 10, R57) decode to the commands they stand for. -/
def Obligations.WordsOfTheSpecDecode : Prop :=
  decode 0x111D#16 = .ok (.getbit 285) ∧ decode 0x2318#16 = .ok (.putbit 280 true) ∧
  decode 0x211F#16 = .ok (.putbit 287 false) ∧ decode 0x30CC#16 = .ok (.xwf 12 3) ∧
  decode 0x40CD#16 = .ok (.xwb 13 3) ∧ decode 0x5000#16 = .ok .setup ∧ decode 0x6000#16 = .ok .rot1 ∧
  decode 0x7000#16 = .ok .clock ∧ decode 0x8000#16 = .ok .ksbyte ∧ decode 0x9000#16 = .ok .warmup ∧
  decode 0xA000#16 = .ok .cipherIp ∧ decode 0xB000#16 = .ok .encrypt ∧ decode 0xB000#16 = .ok .decrypt

/-- From R50, R40: when the host's next action is to issue a word that decodes to `i`, the step is `exec i`, the word having been
taken from the command port. -/
def Obligations.StepRunsTheDecodedCommand : Prop :=
  ∀ (s : State) (w : CmdWord) (i : Instr), decode w = .ok i →
    (∀ rest, s.host = .issue w :: rest → step s = exec i { s with host := rest }) ∧
    step (s.withFetchWord 16 w.toNat) = exec i s

/-! ### Bit Accessor (40_bit_accessor.md) -/

/-- R70: the bit at offset `off` is bit `7 − off mod 8` of byte `off div 8`; it is 1 exactly when that byte and
`0x80 >> (off mod 8)` have a bit in common. -/
def Obligations.GetbitReadsTheWeightedBit : Prop :=
  ∀ (L : Nat) (buf : Vector Byte L) (off : Nat) (h : off < 8 * L) (hk : off / 8 < L),
    (getbit buf off h = true ↔ (buf[off / 8] >>> (7 - off % 8)) &&& 0x01#8 = 0x01#8) ∧
    (getbit buf off h = true ↔ buf[off / 8] &&& (0x80#8 >>> (off % 8)) ≠ 0x00#8)

/-- R71: one bit is replaced; every other byte, and the seven other bits of its byte, are unchanged. -/
def Obligations.PutbitReplacesOneBit : Prop :=
  ∀ (L : Nat) (buf : Vector Byte L) (off : Nat) (v : Bool) (h : off < 8 * L),
    (∀ k (hk : k < L), (putbit buf off v h)[k] =
      if k = off / 8 then
        (buf[k] &&& (0xFF#8 - 0x80#8 >>> (off % 8))) ||| (if v then 0x80#8 >>> (off % 8) else 0x00#8)
      else buf[k]) ∧
    (∀ i, i < 8 * L → i ≠ off → bitAt (putbit buf off v h) i = bitAt buf i) ∧
    bitAt (putbit buf off v h) off = v

/-- R74: the laws of the accessor, and that a buffer is determined by its bits. -/
def Obligations.AccessorLaws : Prop :=
  ∀ (L : Nat) (buf : Vector Byte L) (a b : Nat) (v w : Bool) (ha : a < 8 * L) (hb : b < 8 * L),
    getbit (putbit buf a v ha) a ha = v ∧
    (a ≠ b → getbit (putbit buf a v ha) b hb = getbit buf b hb) ∧
    putbit buf a (getbit buf a ha) ha = buf ∧
    putbit (putbit buf a v ha) a w ha = putbit buf a w ha ∧
    (a ≠ b → putbit (putbit buf a v ha) b w hb = putbit (putbit buf b w hb) a v ha) ∧
    ∀ k (hk : k < L), (buf[k]).toNat =
      ((List.range 8).map fun j => (bitAt buf (8 * k + j)).toNat * (128 / 2 ^ j)).sum

/-- R72: GETBIT, with its faults in their order. -/
def Obligations.GetbitCommand : Prop :=
  (∀ (s : State) (off : BitVec 9), s.flt = false →
    (287 < off.toNat → exec (.getbit off) s = .next { s with flt := true, cause := .offset, fcmd := encode (.getbit off) }) ∧
    (off.toNat ≤ 287 → s.sv = false →
      exec (.getbit off) s = .next { s with flt := true, cause := .stateInvalid, fcmd := encode (.getbit off) }) ∧
    ∀ b, off.toNat ≤ 287 → s.st = some b →
      exec (.getbit off) s = .next { s with res := if bitAt b off.toNat then 0x01#8 else 0x00#8 }) ∧
  IllegalWhen (fun w => opcodeOf w = 0x1 ∧ w.toNat / 512 % 8 ≠ 0)

/-- R73: PUTBIT, with its faults in their order; the other 287 bits, RES and SV stay. -/
def Obligations.PutbitCommand : Prop :=
  (∀ (s : State) (off : BitVec 9) (v : Bool), s.flt = false →
    (287 < off.toNat →
      exec (.putbit off v) s = .next { s with flt := true, cause := .offset, fcmd := encode (.putbit off v) }) ∧
    (off.toNat ≤ 287 → s.sv = false →
      exec (.putbit off v) s = .next { s with flt := true, cause := .stateInvalid, fcmd := encode (.putbit off v) }) ∧
    ∀ b, off.toNat ≤ 287 → s.st = some b →
      ∃ b' : St, exec (.putbit off v) s = .next { s with st := some b' } ∧
        ∀ i, i < 288 → bitAt b' i = if i = off.toNat then v else bitAt b i) ∧
  IllegalWhen (fun w => opcodeOf w = 0x2 ∧ w.toNat / 1024 % 4 ≠ 0)

/-! ### Crosswrite Shifter (41_crosswrite.md) -/

/-- R80, R81: the two bytes at the boundary after a forward and after a backward crosswrite, computed from the old values; all
other bytes are unchanged. -/
def Obligations.CrosswriteBytes : Prop :=
  ∀ (L : Nat) (buf : Vector Byte L) (k n : Nat) (h : XwRange L k n) (hp : k - 1 < L),
    (∀ i (hi : i < L), (xwf buf k n h)[i] =
      if i = k then (buf[k]'h.1.2 &&& (0xFF#8 >>> n)) ||| (buf[k - 1] <<< (8 - n))
      else if i = k - 1 then buf[k - 1] >>> n
      else buf[i]) ∧
    (∀ i (hi : i < L), (xwb buf k n h)[i] =
      if i = k - 1 then (buf[k - 1] &&& (0xFF#8 <<< n)) ||| (buf[k]'h.1.2 >>> (8 - n))
      else if i = k then buf[k]'h.1.2 <<< n
      else buf[i])

/-- R84: both crosswrites in flat bit offsets. -/
def Obligations.CrosswriteInFlatOffsets : Prop :=
  ∀ (L : Nat) (buf : Vector Byte L) (k n j : Nat) (h : XwRange L k n),
    (j < n → bitAt (xwf buf k n h) (8 * k + j) = bitAt buf (8 * k - n + j)) ∧
    (n ≤ j → j ≤ 7 → bitAt (xwf buf k n h) (8 * k + j) = bitAt buf (8 * k + j)) ∧
    (j < n → bitAt (xwf buf k n h) (8 * (k - 1) + j) = false) ∧
    (n ≤ j → j ≤ 7 → bitAt (xwf buf k n h) (8 * (k - 1) + j) = bitAt buf (8 * (k - 1) + j - n)) ∧
    (j < n → bitAt (xwb buf k n h) (8 * k - n + j) = bitAt buf (8 * k + j)) ∧
    (j < 8 - n → bitAt (xwb buf k n h) (8 * (k - 1) + j) = bitAt buf (8 * (k - 1) + j)) ∧
    (j < 8 - n → bitAt (xwb buf k n h) (8 * k + j) = bitAt buf (8 * k + j + n)) ∧
    (8 - n ≤ j → j ≤ 7 → bitAt (xwb buf k n h) (8 * k + j) = false)

/-- R86: the destination bits are replaced by the moved run, not ORed with it, and the other bits of the destination byte are
kept. -/
def Obligations.CrosswriteReplacesAndKeeps : Prop :=
  ∀ (L : Nat) (buf : Vector Byte L) (k n : Nat) (h : XwRange L k n) (hk : k < L) (hp : k - 1 < L),
    (xwf buf k n h)[k] >>> (8 - n) = buf[k - 1] &&& (0xFF#8 >>> (8 - n)) ∧
    (xwf buf k n h)[k] &&& (0xFF#8 >>> n) = buf[k] &&& (0xFF#8 >>> n) ∧
    (xwb buf k n h)[k - 1] &&& (0xFF#8 >>> (8 - n)) = buf[k] >>> (8 - n) ∧
    (xwb buf k n h)[k - 1] &&& (0xFF#8 <<< n) = buf[k - 1] &&& (0xFF#8 <<< n)

/-- R87: a forward and then a backward crosswrite at the same place; the round trip is not the identity. -/
def Obligations.CrosswritesAreNotInverse : Prop :=
  (∀ (L : Nat) (buf : Vector Byte L) (k n : Nat) (h : XwRange L k n) (hk : k < L) (hp : k - 1 < L),
    (xwb (xwf buf k n h) k n h)[k - 1] =
      ((buf[k - 1] >>> n) &&& (0xFF#8 <<< n)) ||| (buf[k - 1] &&& (0xFF#8 >>> (8 - n))) ∧
    (xwb (xwf buf k n h) k n h)[k] = (buf[k] &&& (0xFF#8 >>> n)) <<< n) ∧
  ∀ n (hn : 1 ≤ n ∧ n ≤ 7) (h : XwRange 2 1 n), ∃ buf : Vector Byte 2,
    xwb (xwf buf 1 n h) 1 n h ≠ buf ∧ xwf (xwb buf 1 n h) 1 n h ≠ buf

/-- R82: XWF, with its faults in their order. -/
def Obligations.XwfCommand : Prop :=
  (∀ (s : State) (k : BitVec 6) (n : BitVec 3), s.flt = false →
    (k.toNat = 0 ∨ 35 < k.toNat ∨ n.toNat = 0 →
      exec (.xwf k n) s = .next { s with flt := true, cause := .xwRange, fcmd := encode (.xwf k n) }) ∧
    (1 ≤ k.toNat → k.toNat ≤ 35 → 1 ≤ n.toNat → s.sv = false →
      exec (.xwf k n) s = .next { s with flt := true, cause := .stateInvalid, fcmd := encode (.xwf k n) }) ∧
    ∀ b (h : XwRange 36 k.toNat n.toNat), s.st = some b →
      exec (.xwf k n) s = .next { s with st := some (xwf b k.toNat n.toNat h) }) ∧
  IllegalWhen (fun w => opcodeOf w = 0x3 ∧ w.toNat / 512 % 8 ≠ 0)

/-- R83: XWB, with its faults in their order. -/
def Obligations.XwbCommand : Prop :=
  (∀ (s : State) (k : BitVec 6) (n : BitVec 3), s.flt = false →
    (k.toNat = 0 ∨ 35 < k.toNat ∨ n.toNat = 0 →
      exec (.xwb k n) s = .next { s with flt := true, cause := .xwRange, fcmd := encode (.xwb k n) }) ∧
    (1 ≤ k.toNat → k.toNat ≤ 35 → 1 ≤ n.toNat → s.sv = false →
      exec (.xwb k n) s = .next { s with flt := true, cause := .stateInvalid, fcmd := encode (.xwb k n) }) ∧
    ∀ b (h : XwRange 36 k.toNat n.toNat), s.st = some b →
      exec (.xwb k n) s = .next { s with st := some (xwb b k.toNat n.toNat h) }) ∧
  IllegalWhen (fun w => opcodeOf w = 0x4 ∧ w.toNat / 512 % 8 ≠ 0)

/-! ### State Initializer (42_state_initializer.md) -/

/-- R94: the layout byte by byte. -/
def Obligations.SetupByteForm : Prop :=
  ∀ K V : Vector Byte 10,
    (∀ i (h : i < 10), (setup K V)[i]'(Nat.lt_trans h (by decide)) = K[i]) ∧
    (setup K V)[10] = 0x00#8 ∧
    (setup K V)[11] = V[0] >>> 5 ∧
    (∀ i (h : i < 9) (h1 : i + 1 < 10) (h2 : i < 10) (h3 : 12 + i < 36),
      (setup K V)[12 + i] = (V[i] <<< 3) ||| (V[i + 1] >>> 5)) ∧
    (setup K V)[21] = V[9] <<< 3 ∧
    (∀ k (h : k < 36), 22 ≤ k → k ≤ 34 → (setup K V)[k] = 0x00#8) ∧
    (setup K V)[35] = 0x07#8

/-- R91: the layout in flat offsets. -/
def Obligations.SetupBitLayout : Prop :=
  ∀ K V : Vector Byte 10,
    (∀ i, i ≤ 79 → bitAt (setup K V) i = bitAt K i) ∧
    (∀ i, 80 ≤ i → i ≤ 92 → bitAt (setup K V) i = false) ∧
    (∀ i, i ≤ 79 → bitAt (setup K V) (93 + i) = bitAt V i) ∧
    (∀ i, 173 ≤ i → i ≤ 284 → bitAt (setup K V) i = false) ∧
    (∀ i, 285 ≤ i → i ≤ 287 → bitAt (setup K V) i = true)

/-- R93: the bits that can be non-zero after `setup` are exactly the key's, the IV's and the suffix's; the suffix is 1 for every K
and V; `setup` is injective; it never yields the all-zero state. -/
def Obligations.SetupInvariants : Prop :=
  (∀ i, (∃ K V : Vector Byte 10, bitAt (setup K V) i = true) ↔
    i ≤ 79 ∨ (93 ≤ i ∧ i ≤ 172) ∨ (285 ≤ i ∧ i ≤ 287)) ∧
  (∀ (K V : Vector Byte 10) (i : Nat), 285 ≤ i → i ≤ 287 → bitAt (setup K V) i = true) ∧
  (∀ K V K' V' : Vector Byte 10, setup K V = setup K' V' → K = K' ∧ V = V') ∧
  ∀ K V : Vector Byte 10, setup K V ≠ zeroSt

/-- From R90, R92: the procedure leaves nothing of what the register held before. -/
def Obligations.SetupForgetsTheOldRegister : Prop :=
  ∀ (b : St) (K V : Vector Byte 10), setupOver b K V = setup K V

/-- R92: SETUP. It needs no valid state, applies no reversal whatever KIV_REV is, and faults on a wrong length before anything is
read or written. -/
def Obligations.SetupCommand : Prop :=
  (∀ s : State, s.flt = false →
    (s.klen ≠ 10#8 ∨ s.vlen ≠ 10#8 →
      exec .setup s = .next { s with flt := true, cause := .size, fcmd := 0x5000#16 }) ∧
    ∀ K V : Vector Byte 10, s.keyIvSizeOk → TenBytesOf s.keyBuf K → TenBytesOf s.ivBuf V →
      exec .setup s = .next { s with st := some (setup K V) }) ∧
  IllegalWhen (fun w => opcodeOf w = 0x5 ∧ w.toNat % 4096 ≠ 0)

/-! ### Keystream Core (43_keystream_core.md) -/

/-- R100, R108: the tap network on the fifteen offsets. -/
def Obligations.TapNetwork : Prop :=
  ∀ b : St, ∃ t1 t2 t3 z f1 f2 f3 : Bool, taps b = ⟨t1, t2, t3, z, f1, f2, f3⟩ ∧
    t1 = (bitAt b 65 ^^ bitAt b 92) ∧ t2 = (bitAt b 161 ^^ bitAt b 176) ∧ t3 = (bitAt b 242 ^^ bitAt b 287) ∧
    z = (bitAt b 65 ^^ bitAt b 92 ^^ bitAt b 161 ^^ bitAt b 176 ^^ bitAt b 242 ^^ bitAt b 287) ∧
    f1 = (bitAt b 65 ^^ bitAt b 92 ^^ (bitAt b 90 && bitAt b 91) ^^ bitAt b 170) ∧
    f2 = (bitAt b 161 ^^ bitAt b 176 ^^ (bitAt b 174 && bitAt b 175) ^^ bitAt b 263) ∧
    f3 = (bitAt b 242 ^^ bitAt b 287 ^^ (bitAt b 285 && bitAt b 286) ^^ bitAt b 68)

/-- R101: every bit moves to the next higher offset and offset 0 becomes 0; the same in closed byte form. -/
def Obligations.RotationMovesEveryBitUp : Prop :=
  ∀ b : St,
    bitAt (rot1 b) 0 = false ∧
    (∀ i, 1 ≤ i → i ≤ 287 → bitAt (rot1 b) i = bitAt b (i - 1)) ∧
    (rot1 b)[0] = b[0] >>> 1 ∧
    ∀ k (hk : k < 36) (hp : k - 1 < 36), 1 ≤ k →
      (rot1 b)[k] = ((b[k] : Byte) >>> 1) ||| ((b[k - 1] &&& 0x01#8) <<< 7)

/-- R102: ROT1; the old bit 287 is discarded and bit 0 is 0 afterwards. -/
def Obligations.RotationCommand : Prop :=
  (∀ s : State, s.flt = false →
    (s.sv = false → exec .rot1 s = .next { s with flt := true, cause := .stateInvalid, fcmd := 0x6000#16 }) ∧
    ∀ b, s.st = some b → ∃ b' : St, exec .rot1 s = .next { s with st := some b' } ∧
      bitAt b' 0 = false ∧ ∀ i, 1 ≤ i → i ≤ 287 → bitAt b' i = bitAt b (i - 1)) ∧
  (∀ (s : State) (b : St), s.flt = false → s.st = some b → s.host = List.replicate 288 (.issue 0x6000#16) →
    runSteps 288 s = .next { s with host := [], st := some zeroSt }) ∧
  IllegalWhen (fun w => opcodeOf w = 0x6 ∧ w.toNat % 4096 ≠ 0)

/-- R105: the clock step in flat offsets. -/
def Obligations.ClockInFlatOffsets : Prop :=
  ∀ b : St,
    (clock b).1 = (bitAt b 65 ^^ bitAt b 92 ^^ bitAt b 161 ^^ bitAt b 176 ^^ bitAt b 242 ^^ bitAt b 287) ∧
    bitAt (clock b).2 0 = (bitAt b 242 ^^ bitAt b 287 ^^ (bitAt b 285 && bitAt b 286) ^^ bitAt b 68) ∧
    bitAt (clock b).2 93 = (bitAt b 65 ^^ bitAt b 92 ^^ (bitAt b 90 && bitAt b 91) ^^ bitAt b 170) ∧
    bitAt (clock b).2 177 = (bitAt b 161 ^^ bitAt b 176 ^^ (bitAt b 174 && bitAt b 175) ^^ bitAt b 263) ∧
    ∀ i, 1 ≤ i → i ≤ 287 → i ≠ 93 → i ≠ 177 → bitAt (clock b).2 i = bitAt b (i - 1)

/-- R104: CLOCK. -/
def Obligations.ClockCommand : Prop :=
  (∀ s : State, s.flt = false →
    (s.sv = false → exec .clock s = .next { s with flt := true, cause := .stateInvalid, fcmd := 0x7000#16 }) ∧
    ∀ b, s.st = some b → exec .clock s =
      .next { s with st := some (clock b).2, res := if (clock b).1 then 0x01#8 else 0x00#8 }) ∧
  IllegalWhen (fun w => opcodeOf w = 0x7 ∧ w.toNat % 4096 ≠ 0)

/-- R109: the step is a bijection on the states, with the inverse the rule gives; the all-zero state is a fixed point that emits 0,
and no state reached from `setup` by clocks is all-zero. -/
def Obligations.ClockIsInvertible : Prop :=
  (∀ b : St,
    (∀ i, 1 ≤ i → i ≤ 287 → i ≠ 93 → i ≠ 177 → bitAt b (i - 1) = bitAt (clock b).2 i) ∧
    bitAt b 92 = (bitAt (clock b).2 93 ^^ bitAt (clock b).2 66 ^^
      (bitAt (clock b).2 91 && bitAt (clock b).2 92) ^^ bitAt (clock b).2 171) ∧
    bitAt b 176 = (bitAt (clock b).2 177 ^^ bitAt (clock b).2 162 ^^
      (bitAt (clock b).2 175 && bitAt (clock b).2 176) ^^ bitAt (clock b).2 264) ∧
    bitAt b 287 = (bitAt (clock b).2 0 ^^ bitAt (clock b).2 243 ^^
      (bitAt (clock b).2 286 && bitAt (clock b).2 287) ^^ bitAt (clock b).2 69)) ∧
  Function.Bijective (fun b : St => (clock b).2) ∧
  clock zeroSt = (false, zeroSt) ∧
  ∀ (K V : Vector Byte 10) (n : Nat), iterateClock n (setup K V) ≠ zeroSt

/-- R106: the keystream byte is the eight emitted bits, the first most significant, and the state advances by eight clocks. -/
def Obligations.KeystreamByteAssembly : Prop :=
  ∀ b : St,
    (ksbyte b).1.toNat = ((List.range 8).map fun j => (clock (iterateClock j b)).1.toNat * (128 / 2 ^ j)).sum ∧
    (ksbyte b).2 = iterateClock 8 b

/-- R107: KSBYTE, and that it is the same as eight CLOCK commands whose results are packed first bit most significant. -/
def Obligations.KeystreamByteCommand : Prop :=
  (∀ s : State, s.flt = false →
    (s.sv = false → exec .ksbyte s = .next { s with flt := true, cause := .stateInvalid, fcmd := 0x8000#16 }) ∧
    ∀ b, s.st = some b → exec .ksbyte s = .next { s with st := some (ksbyte b).2, res := (ksbyte b).1 }) ∧
  (∀ (s u : State) (j : Nat), s.flt = false → s.host = List.replicate 8 (.issue 0x7000#16) → s.sv = true →
    exec .ksbyte s = .next u → j < 8 →
    ∃ t, runSteps (j + 1) s = .next t ∧ t.res = (if u.res.getLsbD (7 - j) then 0x01#8 else 0x00#8) ∧
      (j = 7 → t.st = u.st)) ∧
  IllegalWhen (fun w => opcodeOf w = 0x8 ∧ w.toNat % 4096 ≠ 0)

/-! ### Cipher Driver (44_cipher_driver.md) -/

/-- R120: policy AS_GIVEN uses the bytes as given, policy REVERSED from last to first, key and IV each on its own, by the driver
only: SETUP never applies it, whatever the strap. -/
def Obligations.KeyIvByteOrder : Prop :=
  ∀ X : Vector Byte 10, order false X = X ∧
    (∀ i (h : i < 10) (h9 : 9 - i < 10), (order true X)[i] = X[9 - i]) ∧
    (∀ (K V : Vector Byte 10) (M : List Byte), cipher true K V M = cipher false (order true K) (order true V) M) ∧
    ∀ (s : State) (K V : Vector Byte 10), s.flt = false → s.keyIvSizeOk → TenBytesOf s.keyBuf K → TenBytesOf s.ivBuf V →
      ∃ t, exec .setup s = .next t ∧ t.st = some (setup K V)

/-- R122, R121: WARMUP is exactly 1152 clock steps and leaves RES; it is the same as 1152 CLOCK commands but for RES. -/
def Obligations.WarmupCommand : Prop :=
  (∀ s : State, s.flt = false →
    (s.sv = false → exec .warmup s = .next { s with flt := true, cause := .stateInvalid, fcmd := 0x9000#16 }) ∧
    ∀ b, s.st = some b → exec .warmup s = .next { s with st := some (iterateClock 1152 b) }) ∧
  (∀ s : State, s.flt = false → s.sv = true → s.host = List.replicate 1152 (.issue 0x7000#16) →
    ∃ t r, exec .warmup { s with host := [] } = .next t ∧ runSteps 1152 s = .next { t with res := r }) ∧
  IllegalWhen (fun w => opcodeOf w = 0x9 ∧ w.toNat % 4096 ≠ 0)

/-- R124, R123: result byte `idx` is the input byte XOR the keystream byte made of clocks 1152 + 8 idx + 1 to 1152 + 8 idx + 8
counted from `setup`; the state is consumed through 1152 + 8 L clocks. -/
def Obligations.CipherIsXorWithKeystream : Prop :=
  ∀ (rev : Bool) (K V : Vector Byte 10) (M : List Byte),
    (cipher rev K V M).1.length = M.length ∧
    (∀ (idx j : Nat) (m c : Byte), M[idx]? = some m → (cipher rev K V M).1[idx]? = some c → j < 8 →
      c.getLsbD (7 - j) =
        (m.getLsbD (7 - j) ^^ (clock (iterateClock (1152 + 8 * idx + j) (setup (order rev K) (order rev V)))).1)) ∧
    (cipher rev K V M).2 = iterateClock (1152 + 8 * M.length) (setup (order rev K) (order rev V))

/-- R128: round trip, determinism, pure XOR, keystream form, prefix. -/
def Obligations.CipherProperties : Prop :=
  (∀ (rev : Bool) (K V : Vector Byte 10) (M : List Byte),
    (cipher rev K V (cipher rev K V M).1).1 = M ∧
    (cipher rev K V M).1 = List.zipWith (· ^^^ ·) M (cipher rev K V (List.replicate M.length 0x00#8)).1 ∧
    ∀ n, (cipher rev K V (M.take n)).1 = (cipher rev K V M).1.take n) ∧
  (∀ (rev : Bool) (K V : Vector Byte 10) (M1 M2 : List Byte), M1.length = M2.length →
    List.zipWith (· ^^^ ·) (cipher rev K V M1).1 (cipher rev K V M2).1 = List.zipWith (· ^^^ ·) M1 M2) ∧
  ∀ (s t : State) (K V : Vector Byte 10) (M : List Byte), s.cfg.kivRev = t.cfg.kivRev →
    TenBytesOf s.keyBuf K → TenBytesOf t.keyBuf K → TenBytesOf s.ivBuf V → TenBytesOf t.ivBuf V →
    BytesOf s.inBuf s.len.toNat M → BytesOf t.inBuf t.len.toNat M → s.cipherBytes = t.cipherBytes

/-- R125: CIPHER.IP. It needs no valid state; IN gets the result and only its first LEN bytes change; the state is discarded;
everything else stays. -/
def Obligations.CipherInPlaceCommand : Prop :=
  (∀ s : State, s.flt = false →
    (s.klen ≠ 10#8 ∨ s.vlen ≠ 10#8 ∨ s.len = 0#16 ∨ s.cfg.bufmax < s.len.toNat →
      exec .cipherIp s = .next { s with flt := true, cause := .size, fcmd := 0xA000#16 }) ∧
    ∀ (K V : Vector Byte 10) (M : List Byte), s.cipherSizeOk → s.inBuf.wf → TenBytesOf s.keyBuf K → TenBytesOf s.ivBuf V →
      BytesOf s.inBuf s.len.toNat M →
      ∃ m : Memory, exec .cipherIp s = .next { s with inBuf := m, st := none } ∧
        BytesOf m s.len.toNat (cipher s.cfg.kivRev K V M).1 ∧
        ∀ a, s.len.toNat ≤ a → m.read a = s.inBuf.read a) ∧
  IllegalWhen (fun w => opcodeOf w = 0xA ∧ w.toNat % 4096 ≠ 0)

/-- R126: CIPHER.CP. OUT gets the result below LEN, OLEN is LEN, IN is unchanged; the state is discarded; everything else stays. -/
def Obligations.CipherCopyCommand : Prop :=
  (∀ s : State, s.flt = false →
    (s.klen ≠ 10#8 ∨ s.vlen ≠ 10#8 ∨ s.len = 0#16 ∨ s.cfg.bufmax < s.len.toNat →
      exec .cipherCp s = .next { s with flt := true, cause := .size, fcmd := 0xB000#16 }) ∧
    ∀ (K V : Vector Byte 10) (M : List Byte), s.cipherSizeOk → s.outBuf.wf → TenBytesOf s.keyBuf K → TenBytesOf s.ivBuf V →
      BytesOf s.inBuf s.len.toNat M →
      ∃ m : Memory, exec .cipherCp s = .next { s with outBuf := m, olen := s.len, st := none } ∧
        BytesOf m s.len.toNat (cipher s.cfg.kivRev K V M).1 ∧
        ∀ a, s.len.toNat ≤ a → m.read a = s.outBuf.read a) ∧
  IllegalWhen (fun w => opcodeOf w = 0xB ∧ w.toNat % 4096 ≠ 0)

/-- R131: when a CIPHER command completes the state is discarded: SV is 0, the host reads no byte of ST, and every command that
reads the state then faults. The value just before was clock^(1152 + 8 LEN)(setup(order(K), order(V))). -/
def Obligations.EndOfRunDiscardsTheState : Prop :=
  ∀ (s : State) (i j : Instr), s.flt = false → s.cipherSizeOk → i ∈ [Instr.cipherIp, .cipherCp] →
    (∃ t, exec i s = .next t ∧ t.sv = false ∧ (∀ k, t.readSt k = none) ∧
      (j.wf = true → j ∉ [Instr.setup, .cipherIp, .cipherCp] →
        exec j t = .next { t with flt := true, cause := .stateInvalid, fcmd := encode j })) ∧
    ∀ (K V : Vector Byte 10) (M : List Byte), BytesOf s.inBuf s.len.toNat M →
      (cipher s.cfg.kivRev K V M).2 =
        iterateClock (1152 + 8 * s.len.toNat) (setup (order s.cfg.kivRev K) (order s.cfg.kivRev V))

/-- R130: SETUP, WARMUP and one KSBYTE for each byte, on a core `s`, give in RES the bytes the host XORs with its input to get those
of CIPHER.CP on a core `p`. Where `p` has policy REVERSED, the host has reversed the key and IV bytes of `s` itself; the strap of `s`
does not matter, so `s` and `p` may be one instance under either policy. SV stays 1. -/
def Obligations.DriverFromItsParts : Prop :=
  ∀ (s p u : State) (K V : Vector Byte 10) (n : Nat),
    p.flt = false → p.cipherSizeOk → p.outBuf.wf → TenBytesOf p.keyBuf K → TenBytesOf p.ivBuf V →
    exec .cipherCp p = .next u → n < p.len.toNat →
    s.flt = false → s.keyIvSizeOk →
    TenBytesOf s.keyBuf (order p.cfg.kivRev K) → TenBytesOf s.ivBuf (order p.cfg.kivRev V) →
    s.host = .issue 0x5000#16 :: .issue 0x9000#16 :: List.replicate (n + 1) (.issue 0x8000#16) →
    ∃ t, SuccessfulRun (n + 3) s t ∧ t.sv = true ∧ u.readOut n = some (p.inBuf.read n ^^^ t.res)

/-- From R125, R128: issuing CIPHER.IP twice on the same buffers restores IN, as the same memory. -/
def Obligations.InPlaceTwiceRestoresTheInput : Prop :=
  ∀ s : State, s.flt = false → s.cipherSizeOk → s.inBuf.wf →
    ∃ t, exec .cipherIp s = .next t ∧ exec .cipherIp t = .next { s with st := none }

/-- From R126, R128: what CIPHER.CP put into OUT, copied into IN, is decrypted by CIPHER.CP to the first input, whatever the two
states held otherwise. -/
def Obligations.CopyThenDecryptGivesTheInput : Prop :=
  ∀ s s' t : State, s.flt = false → s.cipherSizeOk → s.outBuf.wf → exec .cipherCp s = .next t →
    s'.flt = false → s'.outBuf.wf → s'.cfg = s.cfg → s'.klen = s.klen → s'.vlen = s.vlen → s'.len = s.len →
    s'.keyBuf = s.keyBuf → s'.ivBuf = s.ivBuf → (∀ idx, idx < s.len.toNat → t.readOut idx = some (s'.inBuf.read idx)) →
    ∃ u, exec .cipherCp s' = .next u ∧ u.olen = s.len ∧
      ∀ idx, idx < s.len.toNat → u.readOut idx = some (s.inBuf.read idx)

/-- From R11, R92, R129: SETUP and the CIPHER commands build their own state: what the register held before does not matter. -/
def Obligations.BuildersIgnoreTheOldState : Prop :=
  ∀ (s : State) (x : Option St), s.flt = false →
    (s.keyIvSizeOk → exec .setup { s with st := x } = exec .setup s) ∧
    (s.cipherSizeOk → exec .cipherIp { s with st := x } = exec .cipherIp s ∧
      exec .cipherCp { s with st := x } = exec .cipherCp s)

/-! ### Faults (60_exceptions.md) -/

/-- R144: a fault writes FLT, CAUSE and FCMD and nothing else. -/
def Obligations.FaultEntryIsPrecise : Prop :=
  ∀ (s t : State) (w : CmdWord), s.flt = false → issueWord w s = .next t → t.flt = true →
    t.cause ≠ .none ∧ t = { s with flt := true, cause := t.cause, fcmd := w }

/-- R143, with the causes of R141 and R142: on an unfaulted core exactly one cause is reported, the first in the order of the rule,
and a word with none of them completes without a fault. -/
def Obligations.FaultPriority : Prop :=
  ∀ (s : State) (w : CmdWord),
    (s.flt = true → issueWord w s = .next s) ∧
    (s.flt = false → ∃ t, issueWord w s = .next t ∧
      (expectedCause w s ≠ .none → t = { s with flt := true, cause := expectedCause w s, fcmd := w }) ∧
      (expectedCause w s = .none → t.flt = false ∧ t.cause = s.cause ∧ t.fcmd = s.fcmd))

/-- R145: while FLT = 1 a command has no effect at all; the first fault is kept. -/
def Obligations.FaultIsSticky : Prop :=
  ∀ s : State, s.flt = true →
    (∀ i, exec i s = .next s) ∧
    ∀ w rest, s.host = .issue w :: rest → step s = .next { s with host := rest }

/-- R146: reset is the only way out of the faulted condition, and it discards the state. -/
def Obligations.OnlyResetClearsAFault : Prop :=
  ∀ s t : State, step s = .next t → s.flt = true → t.flt = false →
    t.sv = false ∧ ∃ rest, s.host = .reset :: rest ∨ ∃ w, s.host = .abandon w :: rest

/-- From R60: whether a command faults, and how, depends on the command word, the lengths, SV, FLT and BUFMAX, never on the
contents of a buffer or of the state. -/
def Obligations.FaultsDoNotDependOnData : Prop :=
  ∀ (s s' t t' : State) (w : CmdWord), s.flt = s'.flt → s.cause = s'.cause → s.fcmd = s'.fcmd → s.sv = s'.sv →
    s.klen = s'.klen → s.vlen = s'.vlen → s.len = s'.len → s.cfg.bufmax = s'.cfg.bufmax →
    issueWord w s = .next t → issueWord w s' = .next t' →
    t.flt = t'.flt ∧ t.cause = t'.cause ∧ t.fcmd = t'.fcmd ∧ t.sv = t'.sv

/-- From R142: no command can hang or stop: whatever the state, every command reaches a next state. -/
def Obligations.EveryCommandReachesANextState : Prop :=
  (∀ (i : Instr) (s : State), ∃ t, exec i s = .next t) ∧ ∀ (w : CmdWord) (s : State), ∃ t, issueWord w s = .next t

/-! ### State, reset and the host (10_state.md, 20_memory.md, 70_reset_and_hazards.md) -/

/-- R170, R22: the state after reset; the reset action from any state discards the state, clears the fault, RES and OLEN, makes no
byte of OUT valid, and touches nothing of the host's. -/
def Obligations.ResetLeavesTheSpecValues : Prop :=
  (State.reset.st = none ∧ State.reset.sv = false ∧ State.reset.flt = false ∧ State.reset.causeCode = 0#4 ∧
    State.reset.fcmd = 0#16 ∧ State.reset.res = 0#8 ∧ State.reset.olen = 0#16 ∧
    ∀ idx, State.reset.readOut idx = none) ∧
  ∀ (s : State) (rest : List HostAction), s.host = .reset :: rest →
    ∃ m : Memory, step s = .next { s with
      host := rest, st := none, flt := false, cause := .none, fcmd := 0#16, res := 0#8, olen := 0#16, outBuf := m }

/-- R171: a command abandoned by reset leaves the reset state; of the host's buffers only IN can have changed, and only under a
CIPHER.IP that would have run, each byte below LEN being old or new. No claim which: it holds for every value of the free
value (log 9). -/
def Obligations.AbandonedCommandLeavesResetState : Prop :=
  ∀ (s : State) (w : CmdWord) (rest : List HostAction), s.inBuf.wf → s.host = .abandon w :: rest →
    ∃ (t : State) (mIn mOut : Memory) (d : Nat), step s = .next t ∧
      t = { s with
        host := rest, st := none, flt := false, cause := .none, fcmd := 0#16, res := 0#8, olen := 0#16, outBuf := mOut,
        inBuf := mIn, draws := d } ∧
      ∀ a, mIn.read a = s.inBuf.read a ∨
        (decode w = .ok .cipherIp ∧ s.flt = false ∧ s.cipherSizeOk ∧ a < s.len.toNat ∧
          ∃ u, exec .cipherIp s = .next u ∧ mIn.read a = u.inBuf.read a)

/-- From R22, R6: the invariant holds after reset. The straps and the empty host buffers of `State.reset` are the model's choice
(logs 4, 6). -/
def Obligations.InvariantHoldsAtReset : Prop := State.reset.Inv

/-- The invariant `State.Inv` (R6, R15, R38, R142, and the canonical form of the buffers) is kept by every step from every state
that has it. -/
def Obligations.StepKeepsTheInvariant : Prop :=
  ∀ s t : State, s.Inv → step s = .next t → t.Inv

/-- From R11, R12: SV becomes 1 only by SETUP, and becomes 0 only at the end of a CIPHER command or by reset. -/
def Obligations.StateIsBuiltAndDiscardedOnlyByRule : Prop :=
  ∀ s t : State, step s = .next t →
    (s.sv = false → t.sv = true → ∃ rest, s.host = .issue 0x5000#16 :: rest) ∧
    (s.sv = true → t.sv = false → ∃ rest, s.host = .issue 0xA000#16 :: rest ∨ s.host = .issue 0xB000#16 :: rest ∨
      s.host = .reset :: rest ∨ ∃ w, s.host = .abandon w :: rest)

/-- From R15: RES is written by GETBIT, CLOCK and KSBYTE and by reset, and by nothing else. -/
def Obligations.ResultRegisterWriters : Prop :=
  ∀ s t : State, step s = .next t → t.res ≠ s.res →
    ∃ rest, s.host = .reset :: rest ∨ (∃ w, s.host = .abandon w :: rest) ∨
      ∃ w, s.host = .issue w :: rest ∧ s.flt = false ∧
        (decode w = .ok .clock ∨ decode w = .ok .ksbyte ∨ ∃ off, decode w = .ok (.getbit off))

/-- R45: OUT[0 .. OLEN − 1] stays valid and unchanged across every step but a reset and a CIPHER.CP that does not fault. -/
def Obligations.OutputStaysValid : Prop :=
  ∀ s t : State, step s = .next t →
    (∀ idx, t.readOut idx = s.readOut idx) ∨
    ∃ rest, (s.host = .issue 0xB000#16 :: rest ∧ s.flt = false ∧ s.cipherSizeOk) ∨ s.host = .reset :: rest ∨ ∃ w, s.host = .abandon w :: rest

/-- From R13, R14, R15, R31: the frame of every command. Straps, descriptors, KEY, IV and what the host does next are never
written; IN only by CIPHER.IP and only below LEN; OUT and OLEN only by CIPHER.CP and only below LEN; RES only by GETBIT, CLOCK,
KSBYTE; ST by none of GETBIT's; the fault registers only by a fault. -/
def Obligations.CommandsWriteOnlyWhatTheirRulesName : Prop :=
  ∀ (i : Instr) (s t : State), s.inBuf.wf → s.outBuf.wf → exec i s = .next t →
    t.cfg = s.cfg ∧ t.klen = s.klen ∧ t.vlen = s.vlen ∧ t.len = s.len ∧ t.host = s.host ∧ t.draws = s.draws ∧
    (∀ a, t.keyBuf.read a = s.keyBuf.read a) ∧ (∀ a, t.ivBuf.read a = s.ivBuf.read a) ∧
    (∀ a, i ≠ .cipherIp ∨ s.len.toNat ≤ a → t.inBuf.read a = s.inBuf.read a) ∧
    (∀ a, i ≠ .cipherCp ∨ s.len.toNat ≤ a → t.outBuf.read a = s.outBuf.read a) ∧
    (i ≠ .cipherCp → t.olen = s.olen) ∧
    (i ≠ .clock → i ≠ .ksbyte → (∀ off, i ≠ .getbit off) → t.res = s.res) ∧
    ((∃ off, i = .getbit off) → t.st = s.st) ∧
    (t.flt = s.flt → t.cause = s.cause ∧ t.fcmd = s.fcmd)

/-- From R39, R178, R56: filling a buffer puts the bytes at its indices from 0 on and drives its descriptor to their number,
faulted or not, and changes nothing else; more bytes than the descriptor can declare stop the run (the model's choice, log
12). -/
def Obligations.HostFillsItsBuffers : Prop :=
  ∀ (s : State) (rest : List HostAction) (bytes : List Byte), s.Inv →
    (s.host = .fill .key bytes :: rest → bytes.length ≤ 255 →
      ∃ m : Memory, step s = .next { s with host := rest, keyBuf := m, klen := BitVec.ofNat 8 bytes.length } ∧
        BytesOf m bytes.length bytes ∧ ∀ a, bytes.length ≤ a → m.read a = s.keyBuf.read a) ∧
    (s.host = .fill .iv bytes :: rest → bytes.length ≤ 255 →
      ∃ m : Memory, step s = .next { s with host := rest, ivBuf := m, vlen := BitVec.ofNat 8 bytes.length } ∧
        BytesOf m bytes.length bytes ∧ ∀ a, bytes.length ≤ a → m.read a = s.ivBuf.read a) ∧
    (s.host = .fill .input bytes :: rest → bytes.length ≤ 65535 →
      ∃ m : Memory, step s = .next { s with host := rest, inBuf := m, len := BitVec.ofNat 16 bytes.length } ∧
        BytesOf m bytes.length bytes ∧ ∀ a, bytes.length ≤ a → m.read a = s.inBuf.read a) ∧
    (∀ buf, s.host = .fill buf bytes :: rest → (if buf = .input then 65535 else 255) < bytes.length →
      step s = .fault (.hostOutsideBuffer buf))

/-- From R15, R39, R141: what the host reads. STATUS bit 0 is SV and bit 1 is FLT; CAUSE has its code
of R141; a byte of ST when
SV = 1 and none when SV = 0; a byte of OUT below OLEN and none at or beyond it. -/
def Obligations.HostReadsOnlyWhatHoldsAValue : Prop :=
  ∀ s : State,
    s.statusWord.getLsbD 0 = s.sv ∧ s.statusWord.getLsbD 1 = s.flt ∧ s.causeCode.toNat ≤ 5 ∧
    (s.causeCode = 0#4 ↔ s.cause = .none) ∧
    (s.causeCode = 1#4 ↔ s.cause = .illegalCmd) ∧
    (s.causeCode = 2#4 ↔ s.cause = .size) ∧
    (s.causeCode = 3#4 ↔ s.cause = .offset) ∧
    (s.causeCode = 4#4 ↔ s.cause = .xwRange) ∧
    (s.causeCode = 5#4 ↔ s.cause = .stateInvalid) ∧
    (s.sv = false → ∀ k, s.readSt k = none) ∧
    (∀ b, s.st = some b → ∀ k (hk : k < 36), s.readSt k = some b[k]) ∧
    (∀ idx, idx < s.olen.toNat → s.readOut idx = some (s.outBuf.read idx)) ∧
    ∀ idx, s.olen.toNat ≤ idx → s.readOut idx = none

/-- From R39, R178, R56: writing one byte of a buffer changes that byte and nothing else; driving a descriptor changes that
descriptor and nothing else; faulted or not. A byte no descriptor can declare stops the run (the model's choice, log 12). -/
def Obligations.HostWritesOneByteOrOneDescriptor : Prop :=
  ∀ (s : State) (rest : List HostAction), s.Inv →
    (∀ idx v, s.host = .poke .key idx v :: rest → idx < 255 →
      ∃ m : Memory, step s = .next { s with host := rest, keyBuf := m } ∧
        ∀ a, m.read a = if a = idx then v else s.keyBuf.read a) ∧
    (∀ idx v, s.host = .poke .iv idx v :: rest → idx < 255 →
      ∃ m : Memory, step s = .next { s with host := rest, ivBuf := m } ∧
        ∀ a, m.read a = if a = idx then v else s.ivBuf.read a) ∧
    (∀ idx v, s.host = .poke .input idx v :: rest → idx < 65535 →
      ∃ m : Memory, step s = .next { s with host := rest, inBuf := m } ∧
        ∀ a, m.read a = if a = idx then v else s.inBuf.read a) ∧
    (∀ buf idx v, s.host = .poke buf idx v :: rest → (if buf = .input then 65535 else 255) ≤ idx →
      step s = .fault (.hostOutsideBuffer buf)) ∧
    (∀ n, s.host = .driveKlen n :: rest → step s = .next { s with host := rest, klen := n }) ∧
    (∀ n, s.host = .driveVlen n :: rest → step s = .next { s with host := rest, vlen := n }) ∧
    ∀ n, s.host = .driveLen n :: rest → step s = .next { s with host := rest, len := n }

/-- R181: a run ends when its last command has completed, no command having faulted, or at the first command that faults, its last
state then being the state before that command plus the fault registers; such a run is not successful, whatever the host does
next. (That an abandoning reset ends a run too is the model's reading, log 15.) -/
def Obligations.RunEndsAtTheFirstFault : Prop :=
  (∀ (n : Nat) (s t : State), SuccessfulRun n s t →
    runSteps n s = .next t ∧ ∀ m, m ≤ n → ∃ u, runSteps m s = .next u ∧ u.flt = false) ∧
  (∀ (n : Nat) (s t : State), s.flt = false → runProgram n s = .faulted t →
    ∃ (m : Nat) (u : State) (w : CmdWord) (rest : List HostAction), m < n ∧ SuccessfulRun m s u ∧ u.host = .issue w :: rest ∧
      t.cause ≠ .none ∧ t = { u with host := rest, flt := true, cause := t.cause, fcmd := w }) ∧
  (∀ (m : Nat) (s u t : State), SuccessfulRun m s u → step u = .next t → t.flt = true →
    ∀ k, runProgram (m + 1 + k) s = .faulted t ∧ ∀ t', ¬ SuccessfulRun (m + 1 + k) s t') ∧
  ∀ (m : Nat) (s u t : State) (w : CmdWord) (rest : List HostAction), SuccessfulRun m s u → u.host = .issue w :: rest →
    step u = .next t → t.flt = false → SuccessfulRun (m + 1) s t
end

