-- ==== Sys2Proof/Laws/Bits.lean ====
section
/-!
SUPPORT. The bit view of a byte buffer: what one `putbit` does to every bit, and that a buffer is determined by its bits
(40_bit_accessor.md R70, R71).
-/

namespace Sys2Proof.Machine

/-- Bit 0 of `x >> m`, taken with a mask, is bit `m` of `x`. -/
theorem shift_mask_eq_getLsbD (x : Byte) (m : Nat) : ((x >>> m &&& 0x01#8) == 0x01#8) = x.getLsbD m := by
  have h : (x >>> m) &&& 0x01#8 = BitVec.setWidth 8 (BitVec.ofBool (x.getLsbD m)) := by
    have := BitVec.and_one_eq_setWidth_ofBool_getLsbD (x := x >>> m)
    simpa using this
  rw [h]
  cases x.getLsbD m <;> decide

/-- `getbit` in terms of the core library's bit numbering. -/
theorem getbit_eq {L : Nat} (b : Vector Byte L) (off : Nat) (h : off < 8 * L) :
    getbit b off h = (b[off / 8]'(by omega)).getLsbD (7 - off % 8) :=
  shift_mask_eq_getLsbD _ _

/-- The bit mask of an offset has exactly one bit. -/
theorem bitMask_getLsbD (off i : Nat) : (bitMask off).getLsbD i = decide (i = 7 - off % 8) := by
  have h : ∀ r : Fin 8, ∀ i : Fin 8, (0x80#8 >>> r.val).getLsbD i.val = decide (i.val = 7 - r.val) := by decide
  by_cases hi : i < 8
  · exact h ⟨off % 8, by omega⟩ ⟨i, hi⟩
  · rw [BitVec.getLsbD_of_ge _ _ (by omega), eq_comm, decide_eq_false_iff_not]; omega

/-- The complement of the bit mask has every bit but one. -/
theorem compl_bitMask_getLsbD (off i : Nat) (hi : i < 8) :
    (0xFF#8 - bitMask off).getLsbD i = decide (i ≠ 7 - off % 8) := by
  have h : ∀ r : Fin 8, ∀ i : Fin 8, (0xFF#8 - 0x80#8 >>> r.val).getLsbD i.val = decide (i.val ≠ 7 - r.val) := by decide
  exact h ⟨off % 8, by omega⟩ ⟨i, hi⟩

/-- Every bit after a `putbit`: the named one is `v`, every other one is as before. -/
theorem getbit_putbit {L : Nat} (b : Vector Byte L) (a c : Nat) (v : Bool) (ha : a < 8 * L) (hc : c < 8 * L) :
    getbit (putbit b a v ha) c hc = if c = a then v else getbit b c hc := by
  simp only [getbit_eq, putbit, Vector.getElem_set]
  by_cases hb : a / 8 = c / 8
  · have hr : (7 - c % 8 = 7 - a % 8) ↔ c = a := by omega
    simp only [hb, if_true, BitVec.getLsbD_or, BitVec.getLsbD_and, compl_bitMask_getLsbD a _ (show 7 - c % 8 < 8 by omega)]
    by_cases hca : c = a
    · subst hca
      cases v <;> simp [bitMask_getLsbD]
    · cases v <;> simp [bitMask_getLsbD, hr, hca]
  · have hca : c ≠ a := by rintro rfl; exact hb rfl
    simp [hb, hca]

/-- A buffer is determined by its bits. -/
theorem buffer_ext_bits {L : Nat} {b c : Vector Byte L} (h : ∀ i (hi : i < 8 * L), getbit b i hi = getbit c i hi) :
    b = c := by
  ext k hk j hj
  have := h (8 * k + (7 - j)) (by omega)
  rw [getbit_eq, getbit_eq] at this
  simp only [show (8 * k + (7 - j)) / 8 = k by omega, show 7 - (8 * k + (7 - j)) % 8 = j by omega] at this
  simpa [BitVec.getLsbD_eq_getElem hj] using this

/-- Each bit after writing one byte. -/
theorem getbit_set {L : Nat} (b : Vector Byte L) (k : Nat) (v : Byte) (hk : k < L) (i : Nat) (hi : i < 8 * L) :
    getbit (b.set k v hk) i hi = if i / 8 = k then v.getLsbD (7 - i % 8) else getbit b i hi := by
  simp only [getbit_eq, Vector.getElem_set, eq_comm (a := k)]
  split <;> rfl

end Sys2Proof.Machine
end

