-- ==== Sys2Proof/Laws/Clock.lean ====
section
/-!
SUPPORT. One spec lemma for each function of the Keystream Core, in flat bit offsets (43_keystream_core.md).
-/

namespace Sys2Proof.Machine

/-- A byte shifted right by one, in flat bits: bit `j` from the top is the old bit `j − 1`. -/
theorem ushiftRight_one_getLsbD (x : Byte) (j : Nat) (hj : j < 8) :
    (x >>> 1).getLsbD (7 - j) = if j = 0 then false else x.getLsbD (8 - j) := by
  rw [BitVec.getLsbD_ushiftRight]
  split
  · subst_vars; exact BitVec.getLsbD_of_ge _ _ (by decide)
  · congr 1; omega

/-- A byte whose top bit is replaced by the bottom bit of the byte before it, in flat bits. -/
theorem replace_top_bit_getLsbD (s p : Byte) (j : Nat) (hj : j < 8) :
    ((s &&& (0xFF#8 >>> 1)) ||| (p <<< (8 - 1))).getLsbD (7 - j) = if j = 0 then p.getLsbD 0 else s.getLsbD (7 - j) := by
  interval_cases j <;> simp

/-- Two readings of one bit of a buffer, by byte and by flat offset. -/
theorem getLsbD_eq_getbit {L : Nat} (b : Vector Byte L) (k j i : Nat) (hk : k < L) (hi : i < 8 * L) (h : i = 8 * k + 7 - j)
    (hj : j < 8) : (b[k]).getLsbD j = getbit b i hi := by
  rw [getbit_eq]
  congr 1
  · congr 1; omega
  · omega

/-- The forward crosswrite by one bit, as the rotation uses it: the offsets from `8 (k − 1)` to `8 k` move up by one. -/
theorem getbit_xwf_one {L : Nat} (b : Vector Byte L) (k : Nat) (h : XwRange L k 1) (i : Nat) (hi : i < 8 * L) :
    getbit (xwf b k 1 h) i hi =
      if i = 8 * (k - 1) then false
      else if 8 * (k - 1) < i ∧ i ≤ 8 * k then getbit b (i - 1) (by omega)
      else getbit b i hi := by
  have hk := h.1.1
  have hL := h.1.2
  simp only [xwf, getbit_set, ushiftRight_one_getLsbD _ _ (Nat.mod_lt i (by decide)),
    replace_top_bit_getLsbD _ _ _ (Nat.mod_lt i (by decide))]
  split_ifs <;> first | rfl | omega | exact getLsbD_eq_getbit _ _ _ _ (by omega) _ (by omega) (by omega)

/-- The crosswrites of the rotation, from byte `count` down: offsets 1 to `8 count` get their predecessor. -/
theorem getbit_carryDown (b : St) (count : Nat) (h : count < 36) (i : Nat) (hi : i < 8 * 36) :
    getbit (carryDown b count h) i hi =
      if i ≤ 8 * count ∧ 0 < count then (if i = 0 then false else getbit b (i - 1) (by omega)) else getbit b i hi := by
  induction count generalizing b i with
  | zero => simp [carryDown]
  | succ c ih =>
    simp only [carryDown, ih, getbit_xwf_one]
    split_ifs <;> first | rfl | omega

/-- The clear-and-rotate moves every bit to the next higher offset and brings a 0 into offset 0. -/
theorem getbit_rot1 (b : St) (i : Nat) (hi : i < 8 * 36) :
    getbit (rot1 b) i hi = if i = 0 then false else getbit b (i - 1) (by omega) := by
  have hp : i - 1 ≠ 287 := by omega
  simp only [rot1, getbit_carryDown, getbit_set, getbit_putbit, if_neg hp,
    ushiftRight_one_getLsbD _ _ (Nat.mod_lt i (by decide))]
  split_ifs <;> first | rfl | omega | skip
  rw [getLsbD_eq_getbit _ 35 _ (i - 1) (by decide) (by omega) (by omega) (by omega), getbit_putbit, if_neg hp]

/-- The state after a clock step: the three feedback bits at their offsets, every other bit its predecessor. -/
theorem getbit_clock (b : St) (i : Nat) (hi : i < 8 * 36) :
    getbit (clock b).2 i hi =
      if i = 177 then (taps b).f2
      else if i = 93 then (taps b).f1
      else if i = 0 then (taps b).f3
      else getbit b (i - 1) (by omega) := by
  simp only [clock, getbit_putbit, getbit_rot1]
  split_ifs <;> rfl

/-- Clock steps compose. -/
theorem iterateClock_add (m n : Nat) (b : St) : iterateClock (m + n) b = iterateClock n (iterateClock m b) := by
  induction m generalizing b with
  | zero => simp [iterateClock]
  | succ m ih => rw [Nat.succ_add]; exact ih _

/-- The state after a keystream byte is eight clock steps on. -/
theorem ksbyteFrom_snd (acc : Byte) (b : St) (n : Nat) : (ksbyteFrom acc b n).2 = iterateClock n b := by
  induction n generalizing acc b with
  | zero => rfl
  | succ n ih => exact ih _ _

end Sys2Proof.Machine
end

