-- ==== Sys2Proof/Laws/Memory.lean ====
section
/-!
SUPPORT. The laws of a byte-addressed space: a byte reads as what was last written to it, a write leaves every other byte
alone, and every operation keeps the canonical form.
-/

namespace Sys2Proof.Machine

/-! ### One byte -/

theorem Memory.read_of_above {m : Memory} {i : Nat} (h : ∀ c ∈ m, i < c.1) : m.read i = unlistedByte := by
  induction m with
  | nil => rfl
  | cons c m ih =>
    have := h c (by simp)
    rw [Memory.read, if_neg (by omega), ih fun d hd => h d (by simp [hd])]

theorem Memory.wf_cons {c : Host.Cell} {m : Memory} :
    Memory.wf (c :: m) ↔ (∀ d ∈ m, c.1 < d.1) ∧ c.2 ≠ unlistedByte ∧ Memory.wf m := by
  simp only [Memory.wf, List.map_cons, List.pairwise_cons, List.mem_map, forall_exists_index, and_imp,
    forall_apply_eq_imp_iff₂, List.mem_cons, forall_eq_or_imp]
  tauto

theorem Memory.wf_nil : Memory.wf [] := ⟨List.Pairwise.nil, by simp⟩

/-- A write only ever lists the written index besides what was listed. -/
theorem Memory.write_forall {P : Nat → Prop} {m : Memory} {i : Nat} {v : Byte} (hi : P i) (h : ∀ c ∈ m, P c.1) :
    ∀ c ∈ m.write i v, P c.1 := by
  induction m with
  | nil => intro c hc; simp only [Memory.write, Memory.consByte] at hc; split at hc <;> simp_all
  | cons d m ih =>
    intro c hc
    simp only [Memory.write, Memory.consByte] at hc
    have hd := h d (by simp)
    have hm : ∀ c ∈ m, P c.1 := fun c hc => h c (by simp [hc])
    split_ifs at hc
    · exact h c hc
    · rcases List.mem_cons.mp hc with rfl | hc
      · exact hi
      · exact h c hc
    · exact hm c hc
    · rcases List.mem_cons.mp hc with rfl | hc
      · exact hi
      · exact hm c hc
    · rcases List.mem_cons.mp hc with rfl | hc
      · exact hd
      · exact ih hm c hc

/-- Reading after `consByte`, at an index that read as unlisted. -/
theorem Memory.read_consByte {m : Memory} {i : Nat} (h : Memory.read m i = unlistedByte) (v : Byte) (j : Nat) :
    Memory.read (Memory.consByte i v m) j = if j = i then v else Memory.read m j := by
  rw [Memory.consByte]
  by_cases hv : v = unlistedByte
  · rw [if_pos hv]
    by_cases hj : j = i
    · rw [if_pos hj, hj, h, hv]
    · rw [if_neg hj]
  · rw [if_neg hv, Memory.read]
    simp only [eq_comm (a := i)]

/-- A byte reads as what was written to it, and every other byte as before. -/
theorem Memory.read_write {m : Memory} (h : m.wf) (i : Nat) (v : Byte) (j : Nat) :
    (m.write i v).read j = if j = i then v else m.read j := by
  induction m with
  | nil => exact Memory.read_consByte rfl v j
  | cons c m ih =>
    obtain ⟨ha, hc, hm⟩ := Memory.wf_cons.mp h
    have above : ∀ k, k ≤ c.1 → Memory.read m k = unlistedByte := fun k hk =>
      Memory.read_of_above fun d hd => by have := ha d hd; omega
    rw [Memory.write]
    by_cases h1 : i < c.1
    · rw [if_pos h1, Memory.read_consByte]
      rw [Memory.read, if_neg (by omega), above i (by omega)]
    · rw [if_neg h1]
      by_cases h3 : i = c.1
      · rw [if_pos h3, Memory.read_consByte (above i (by omega))]
        by_cases hj : j = i
        · rw [if_pos hj, if_pos hj]
        · rw [if_neg hj, if_neg hj, Memory.read, if_neg (by omega)]
      · rw [if_neg h3, Memory.read, ih hm]
        by_cases hj : j = i
        · rw [if_pos hj, if_neg (by omega), if_pos hj]
        · simp only [if_neg hj, Memory.read]

/-- A write keeps the canonical form. -/
theorem Memory.wf_write {m : Memory} (h : m.wf) (i : Nat) (v : Byte) : (m.write i v).wf := by
  induction m with
  | nil =>
    simp only [Memory.write, Memory.consByte]
    split_ifs with hv
    · exact Memory.wf_nil
    · exact Memory.wf_cons.mpr ⟨by simp, hv, Memory.wf_nil⟩
  | cons c m ih =>
    obtain ⟨ha, hc, hm⟩ := Memory.wf_cons.mp h
    simp only [Memory.write, Memory.consByte]
    split_ifs with h1 h2 h3 h4
    · exact h
    · refine Memory.wf_cons.mpr ⟨fun d hd => ?_, h2, h⟩
      rcases List.mem_cons.mp hd with rfl | hd
      · exact h1
      · have := ha d hd; omega
    · exact hm
    · exact Memory.wf_cons.mpr ⟨fun d hd => by have := ha d hd; omega, h4, hm⟩
    · exact Memory.wf_cons.mpr
        ⟨Memory.write_forall (P := fun k => c.1 < k) (by omega) ha, hc, ih hm⟩

theorem Memory.within_write {m : Memory} {size i : Nat} (h : m.within size) (hi : i < size) (v : Byte) :
    (m.write i v).within size :=
  Memory.write_forall (P := (· < size)) hi h

/-! ### Runs of bytes -/

theorem Memory.wf_writeBytes {m : Memory} (h : m.wf) (i : Nat) (vs : List Byte) : (m.writeBytes i vs).wf := by
  induction vs generalizing m i with
  | nil => exact h
  | cons v vs ih => exact ih (Memory.wf_write h i v) _

theorem Memory.within_writeBytes {m : Memory} {size : Nat} (h : m.within size) (i : Nat) (vs : List Byte)
    (hi : i + vs.length ≤ size) : (m.writeBytes i vs).within size := by
  induction vs generalizing m i with
  | nil => exact h
  | cons v vs ih =>
    simp only [List.length_cons] at hi
    exact ih (Memory.within_write h (by omega) v) _ (by omega)

/-- Every byte after a run of bytes was written from index `i` on. -/
theorem Memory.read_writeBytes {m : Memory} (h : m.wf) (i : Nat) (vs : List Byte) (j : Nat) :
    (m.writeBytes i vs).read j =
      if hj : i ≤ j ∧ j < i + vs.length then vs[j - i]'(by omega) else m.read j := by
  induction vs generalizing m i with
  | nil => rw [dif_neg (by simp)]; rfl
  | cons v vs ih =>
    rw [Memory.writeBytes, ih (Memory.wf_write h i v), Memory.read_write h]
    simp only [List.length_cons]
    split_ifs with h1 h2 h3 h4 h5 <;> try omega
    · rw [List.getElem_cons, dif_neg (by omega)]
      congr 1
    · subst h3; simp
    · rfl

@[simp] theorem Memory.length_readBytes (m : Memory) (i n : Nat) : (m.readBytes i n).length = n := by
  induction n generalizing i with
  | zero => rfl
  | succ n ih => simp [Memory.readBytes, ih]

@[simp] theorem Memory.getElem_readBytes (m : Memory) (i n j : Nat) (h : j < (m.readBytes i n).length) :
    (m.readBytes i n)[j] = m.read (i + j) := by
  induction n generalizing i j with
  | zero => simp [Memory.readBytes] at h
  | succ n ih =>
    cases j with
    | zero => rfl
    | succ j =>
      simp only [Memory.readBytes, List.getElem_cons_succ]
      rw [ih]
      congr 1
      omega

/-- Two spaces in canonical form that read alike everywhere are the same list: equal memories are equal data. -/
theorem Memory.ext_read {m n : Memory} (hm : m.wf) (hn : n.wf) (h : ∀ i, m.read i = n.read i) : m = n := by
  have listed : ∀ {c : Host.Cell} {m : Memory}, Memory.wf (c :: m) → (Memory.read (c :: m) c.1) = c.2 := by
    intro c m _; simp [Memory.read]
  induction m generalizing n with
  | nil =>
    cases n with
    | nil => rfl
    | cons d n =>
      have h1 := h d.1
      rw [listed hn] at h1
      exact absurd h1.symm (Memory.wf_cons.mp hn).2.1
  | cons c m ih =>
    obtain ⟨ha, hc, hmt⟩ := Memory.wf_cons.mp hm
    cases n with
    | nil =>
      have h1 := h c.1
      rw [listed hm] at h1
      exact absurd h1 hc
    | cons d n =>
      obtain ⟨hb, hd, hnt⟩ := Memory.wf_cons.mp hn
      have aboveM : ∀ k, k ≤ c.1 → Memory.read m k = unlistedByte := fun k hk =>
        Memory.read_of_above fun e he => by have := ha e he; omega
      have aboveN : ∀ k, k ≤ d.1 → Memory.read n k = unlistedByte := fun k hk =>
        Memory.read_of_above fun e he => by have := hb e he; omega
      have h1 := h c.1
      have h2 := h d.1
      rw [listed hm] at h1
      rw [listed hn] at h2
      simp only [Memory.read] at h1 h2
      have hcd : c.1 = d.1 := by
        by_contra hne
        rcases lt_or_gt_of_ne hne with hlt | hlt
        · rw [if_neg (by omega), aboveN _ (by omega)] at h1; exact hc h1
        · rw [if_neg (by omega), aboveM _ (by omega)] at h2; exact hd h2.symm
      rw [if_pos hcd.symm] at h1
      have hce : c = d := Prod.ext hcd h1
      subst hce
      rw [ih hmt hnt fun i => ?_]
      by_cases hi : i ≤ c.1
      · rw [aboveM i hi, aboveN i hi]
      · have := h i
        simp only [Memory.read] at this
        rwa [if_neg (by omega), if_neg (by omega)] at this

end Sys2Proof.Machine
end

