-- ==== Sys2Proof/Laws/State.lean ====
section
/-!
SUPPORT. One lemma per field of State and named update (Machine/Ops.lean): what the update writes, and that every other field
is as it was. And SV, which is computed from ST.
-/

namespace Sys2Proof.Machine

/-! ### setSt -/

@[simp] theorem State.setSt_cfg (s : State) (b : St) : (s.setSt b).cfg = s.cfg := rfl
@[simp] theorem State.setSt_st (s : State) (b : St) : (s.setSt b).st = some b := rfl
@[simp] theorem State.setSt_flt (s : State) (b : St) : (s.setSt b).flt = s.flt := rfl
@[simp] theorem State.setSt_cause (s : State) (b : St) : (s.setSt b).cause = s.cause := rfl
@[simp] theorem State.setSt_fcmd (s : State) (b : St) : (s.setSt b).fcmd = s.fcmd := rfl
@[simp] theorem State.setSt_res (s : State) (b : St) : (s.setSt b).res = s.res := rfl
@[simp] theorem State.setSt_olen (s : State) (b : St) : (s.setSt b).olen = s.olen := rfl
@[simp] theorem State.setSt_klen (s : State) (b : St) : (s.setSt b).klen = s.klen := rfl
@[simp] theorem State.setSt_vlen (s : State) (b : St) : (s.setSt b).vlen = s.vlen := rfl
@[simp] theorem State.setSt_len (s : State) (b : St) : (s.setSt b).len = s.len := rfl
@[simp] theorem State.setSt_keyBuf (s : State) (b : St) : (s.setSt b).keyBuf = s.keyBuf := rfl
@[simp] theorem State.setSt_ivBuf (s : State) (b : St) : (s.setSt b).ivBuf = s.ivBuf := rfl
@[simp] theorem State.setSt_inBuf (s : State) (b : St) : (s.setSt b).inBuf = s.inBuf := rfl
@[simp] theorem State.setSt_outBuf (s : State) (b : St) : (s.setSt b).outBuf = s.outBuf := rfl
@[simp] theorem State.setSt_host (s : State) (b : St) : (s.setSt b).host = s.host := rfl
@[simp] theorem State.setSt_draws (s : State) (b : St) : (s.setSt b).draws = s.draws := rfl

/-! ### discardSt -/

@[simp] theorem State.discardSt_cfg (s : State) : (s.discardSt).cfg = s.cfg := rfl
@[simp] theorem State.discardSt_st (s : State) : (s.discardSt).st = none := rfl
@[simp] theorem State.discardSt_flt (s : State) : (s.discardSt).flt = s.flt := rfl
@[simp] theorem State.discardSt_cause (s : State) : (s.discardSt).cause = s.cause := rfl
@[simp] theorem State.discardSt_fcmd (s : State) : (s.discardSt).fcmd = s.fcmd := rfl
@[simp] theorem State.discardSt_res (s : State) : (s.discardSt).res = s.res := rfl
@[simp] theorem State.discardSt_olen (s : State) : (s.discardSt).olen = s.olen := rfl
@[simp] theorem State.discardSt_klen (s : State) : (s.discardSt).klen = s.klen := rfl
@[simp] theorem State.discardSt_vlen (s : State) : (s.discardSt).vlen = s.vlen := rfl
@[simp] theorem State.discardSt_len (s : State) : (s.discardSt).len = s.len := rfl
@[simp] theorem State.discardSt_keyBuf (s : State) : (s.discardSt).keyBuf = s.keyBuf := rfl
@[simp] theorem State.discardSt_ivBuf (s : State) : (s.discardSt).ivBuf = s.ivBuf := rfl
@[simp] theorem State.discardSt_inBuf (s : State) : (s.discardSt).inBuf = s.inBuf := rfl
@[simp] theorem State.discardSt_outBuf (s : State) : (s.discardSt).outBuf = s.outBuf := rfl
@[simp] theorem State.discardSt_host (s : State) : (s.discardSt).host = s.host := rfl
@[simp] theorem State.discardSt_draws (s : State) : (s.discardSt).draws = s.draws := rfl

/-! ### setRes -/

@[simp] theorem State.setRes_cfg (s : State) (v : Byte) : (s.setRes v).cfg = s.cfg := rfl
@[simp] theorem State.setRes_st (s : State) (v : Byte) : (s.setRes v).st = s.st := rfl
@[simp] theorem State.setRes_flt (s : State) (v : Byte) : (s.setRes v).flt = s.flt := rfl
@[simp] theorem State.setRes_cause (s : State) (v : Byte) : (s.setRes v).cause = s.cause := rfl
@[simp] theorem State.setRes_fcmd (s : State) (v : Byte) : (s.setRes v).fcmd = s.fcmd := rfl
@[simp] theorem State.setRes_res (s : State) (v : Byte) : (s.setRes v).res = v := rfl
@[simp] theorem State.setRes_olen (s : State) (v : Byte) : (s.setRes v).olen = s.olen := rfl
@[simp] theorem State.setRes_klen (s : State) (v : Byte) : (s.setRes v).klen = s.klen := rfl
@[simp] theorem State.setRes_vlen (s : State) (v : Byte) : (s.setRes v).vlen = s.vlen := rfl
@[simp] theorem State.setRes_len (s : State) (v : Byte) : (s.setRes v).len = s.len := rfl
@[simp] theorem State.setRes_keyBuf (s : State) (v : Byte) : (s.setRes v).keyBuf = s.keyBuf := rfl
@[simp] theorem State.setRes_ivBuf (s : State) (v : Byte) : (s.setRes v).ivBuf = s.ivBuf := rfl
@[simp] theorem State.setRes_inBuf (s : State) (v : Byte) : (s.setRes v).inBuf = s.inBuf := rfl
@[simp] theorem State.setRes_outBuf (s : State) (v : Byte) : (s.setRes v).outBuf = s.outBuf := rfl
@[simp] theorem State.setRes_host (s : State) (v : Byte) : (s.setRes v).host = s.host := rfl
@[simp] theorem State.setRes_draws (s : State) (v : Byte) : (s.setRes v).draws = s.draws := rfl

/-! ### setIn -/

@[simp] theorem State.setIn_cfg (s : State) (m : Memory) : (s.setIn m).cfg = s.cfg := rfl
@[simp] theorem State.setIn_st (s : State) (m : Memory) : (s.setIn m).st = s.st := rfl
@[simp] theorem State.setIn_flt (s : State) (m : Memory) : (s.setIn m).flt = s.flt := rfl
@[simp] theorem State.setIn_cause (s : State) (m : Memory) : (s.setIn m).cause = s.cause := rfl
@[simp] theorem State.setIn_fcmd (s : State) (m : Memory) : (s.setIn m).fcmd = s.fcmd := rfl
@[simp] theorem State.setIn_res (s : State) (m : Memory) : (s.setIn m).res = s.res := rfl
@[simp] theorem State.setIn_olen (s : State) (m : Memory) : (s.setIn m).olen = s.olen := rfl
@[simp] theorem State.setIn_klen (s : State) (m : Memory) : (s.setIn m).klen = s.klen := rfl
@[simp] theorem State.setIn_vlen (s : State) (m : Memory) : (s.setIn m).vlen = s.vlen := rfl
@[simp] theorem State.setIn_len (s : State) (m : Memory) : (s.setIn m).len = s.len := rfl
@[simp] theorem State.setIn_keyBuf (s : State) (m : Memory) : (s.setIn m).keyBuf = s.keyBuf := rfl
@[simp] theorem State.setIn_ivBuf (s : State) (m : Memory) : (s.setIn m).ivBuf = s.ivBuf := rfl
@[simp] theorem State.setIn_inBuf (s : State) (m : Memory) : (s.setIn m).inBuf = m := rfl
@[simp] theorem State.setIn_outBuf (s : State) (m : Memory) : (s.setIn m).outBuf = s.outBuf := rfl
@[simp] theorem State.setIn_host (s : State) (m : Memory) : (s.setIn m).host = s.host := rfl
@[simp] theorem State.setIn_draws (s : State) (m : Memory) : (s.setIn m).draws = s.draws := rfl

/-! ### setOut -/

@[simp] theorem State.setOut_cfg (s : State) (m : Memory) (n : BitVec 16) : (s.setOut m n).cfg = s.cfg := rfl
@[simp] theorem State.setOut_st (s : State) (m : Memory) (n : BitVec 16) : (s.setOut m n).st = s.st := rfl
@[simp] theorem State.setOut_flt (s : State) (m : Memory) (n : BitVec 16) : (s.setOut m n).flt = s.flt := rfl
@[simp] theorem State.setOut_cause (s : State) (m : Memory) (n : BitVec 16) : (s.setOut m n).cause = s.cause := rfl
@[simp] theorem State.setOut_fcmd (s : State) (m : Memory) (n : BitVec 16) : (s.setOut m n).fcmd = s.fcmd := rfl
@[simp] theorem State.setOut_res (s : State) (m : Memory) (n : BitVec 16) : (s.setOut m n).res = s.res := rfl
@[simp] theorem State.setOut_olen (s : State) (m : Memory) (n : BitVec 16) : (s.setOut m n).olen = n := rfl
@[simp] theorem State.setOut_klen (s : State) (m : Memory) (n : BitVec 16) : (s.setOut m n).klen = s.klen := rfl
@[simp] theorem State.setOut_vlen (s : State) (m : Memory) (n : BitVec 16) : (s.setOut m n).vlen = s.vlen := rfl
@[simp] theorem State.setOut_len (s : State) (m : Memory) (n : BitVec 16) : (s.setOut m n).len = s.len := rfl
@[simp] theorem State.setOut_keyBuf (s : State) (m : Memory) (n : BitVec 16) : (s.setOut m n).keyBuf = s.keyBuf := rfl
@[simp] theorem State.setOut_ivBuf (s : State) (m : Memory) (n : BitVec 16) : (s.setOut m n).ivBuf = s.ivBuf := rfl
@[simp] theorem State.setOut_inBuf (s : State) (m : Memory) (n : BitVec 16) : (s.setOut m n).inBuf = s.inBuf := rfl
@[simp] theorem State.setOut_outBuf (s : State) (m : Memory) (n : BitVec 16) : (s.setOut m n).outBuf = m := rfl
@[simp] theorem State.setOut_host (s : State) (m : Memory) (n : BitVec 16) : (s.setOut m n).host = s.host := rfl
@[simp] theorem State.setOut_draws (s : State) (m : Memory) (n : BitVec 16) : (s.setOut m n).draws = s.draws := rfl

/-! ### recordFault -/

@[simp] theorem State.recordFault_cfg (s : State) (c : Cause) (w : CmdWord) : (s.recordFault c w).cfg = s.cfg := rfl
@[simp] theorem State.recordFault_st (s : State) (c : Cause) (w : CmdWord) : (s.recordFault c w).st = s.st := rfl
@[simp] theorem State.recordFault_flt (s : State) (c : Cause) (w : CmdWord) : (s.recordFault c w).flt = true := rfl
@[simp] theorem State.recordFault_cause (s : State) (c : Cause) (w : CmdWord) : (s.recordFault c w).cause = c := rfl
@[simp] theorem State.recordFault_fcmd (s : State) (c : Cause) (w : CmdWord) : (s.recordFault c w).fcmd = w := rfl
@[simp] theorem State.recordFault_res (s : State) (c : Cause) (w : CmdWord) : (s.recordFault c w).res = s.res := rfl
@[simp] theorem State.recordFault_olen (s : State) (c : Cause) (w : CmdWord) : (s.recordFault c w).olen = s.olen := rfl
@[simp] theorem State.recordFault_klen (s : State) (c : Cause) (w : CmdWord) : (s.recordFault c w).klen = s.klen := rfl
@[simp] theorem State.recordFault_vlen (s : State) (c : Cause) (w : CmdWord) : (s.recordFault c w).vlen = s.vlen := rfl
@[simp] theorem State.recordFault_len (s : State) (c : Cause) (w : CmdWord) : (s.recordFault c w).len = s.len := rfl
@[simp] theorem State.recordFault_keyBuf (s : State) (c : Cause) (w : CmdWord) : (s.recordFault c w).keyBuf = s.keyBuf := rfl
@[simp] theorem State.recordFault_ivBuf (s : State) (c : Cause) (w : CmdWord) : (s.recordFault c w).ivBuf = s.ivBuf := rfl
@[simp] theorem State.recordFault_inBuf (s : State) (c : Cause) (w : CmdWord) : (s.recordFault c w).inBuf = s.inBuf := rfl
@[simp] theorem State.recordFault_outBuf (s : State) (c : Cause) (w : CmdWord) : (s.recordFault c w).outBuf = s.outBuf := rfl
@[simp] theorem State.recordFault_host (s : State) (c : Cause) (w : CmdWord) : (s.recordFault c w).host = s.host := rfl
@[simp] theorem State.recordFault_draws (s : State) (c : Cause) (w : CmdWord) : (s.recordFault c w).draws = s.draws := rfl

/-! ### setHost -/

@[simp] theorem State.setHost_cfg (s : State) (h : List HostAction) : (s.setHost h).cfg = s.cfg := rfl
@[simp] theorem State.setHost_st (s : State) (h : List HostAction) : (s.setHost h).st = s.st := rfl
@[simp] theorem State.setHost_flt (s : State) (h : List HostAction) : (s.setHost h).flt = s.flt := rfl
@[simp] theorem State.setHost_cause (s : State) (h : List HostAction) : (s.setHost h).cause = s.cause := rfl
@[simp] theorem State.setHost_fcmd (s : State) (h : List HostAction) : (s.setHost h).fcmd = s.fcmd := rfl
@[simp] theorem State.setHost_res (s : State) (h : List HostAction) : (s.setHost h).res = s.res := rfl
@[simp] theorem State.setHost_olen (s : State) (h : List HostAction) : (s.setHost h).olen = s.olen := rfl
@[simp] theorem State.setHost_klen (s : State) (h : List HostAction) : (s.setHost h).klen = s.klen := rfl
@[simp] theorem State.setHost_vlen (s : State) (h : List HostAction) : (s.setHost h).vlen = s.vlen := rfl
@[simp] theorem State.setHost_len (s : State) (h : List HostAction) : (s.setHost h).len = s.len := rfl
@[simp] theorem State.setHost_keyBuf (s : State) (h : List HostAction) : (s.setHost h).keyBuf = s.keyBuf := rfl
@[simp] theorem State.setHost_ivBuf (s : State) (h : List HostAction) : (s.setHost h).ivBuf = s.ivBuf := rfl
@[simp] theorem State.setHost_inBuf (s : State) (h : List HostAction) : (s.setHost h).inBuf = s.inBuf := rfl
@[simp] theorem State.setHost_outBuf (s : State) (h : List HostAction) : (s.setHost h).outBuf = s.outBuf := rfl
@[simp] theorem State.setHost_host (s : State) (h : List HostAction) : (s.setHost h).host = h := rfl
@[simp] theorem State.setHost_draws (s : State) (h : List HostAction) : (s.setHost h).draws = s.draws := rfl

/-! ### resetCore -/

@[simp] theorem State.resetCore_cfg (s : State) : (s.resetCore).cfg = s.cfg := rfl
@[simp] theorem State.resetCore_st (s : State) : (s.resetCore).st = none := rfl
@[simp] theorem State.resetCore_flt (s : State) : (s.resetCore).flt = false := rfl
@[simp] theorem State.resetCore_cause (s : State) : (s.resetCore).cause = Cause.none := rfl
@[simp] theorem State.resetCore_fcmd (s : State) : (s.resetCore).fcmd = 0x0000#16 := rfl
@[simp] theorem State.resetCore_res (s : State) : (s.resetCore).res = 0x00#8 := rfl
@[simp] theorem State.resetCore_olen (s : State) : (s.resetCore).olen = 0x0000#16 := rfl
@[simp] theorem State.resetCore_klen (s : State) : (s.resetCore).klen = s.klen := rfl
@[simp] theorem State.resetCore_vlen (s : State) : (s.resetCore).vlen = s.vlen := rfl
@[simp] theorem State.resetCore_len (s : State) : (s.resetCore).len = s.len := rfl
@[simp] theorem State.resetCore_keyBuf (s : State) : (s.resetCore).keyBuf = s.keyBuf := rfl
@[simp] theorem State.resetCore_ivBuf (s : State) : (s.resetCore).ivBuf = s.ivBuf := rfl
@[simp] theorem State.resetCore_inBuf (s : State) : (s.resetCore).inBuf = s.inBuf := rfl
@[simp] theorem State.resetCore_outBuf (s : State) : (s.resetCore).outBuf = [] := rfl
@[simp] theorem State.resetCore_host (s : State) : (s.resetCore).host = s.host := rfl
@[simp] theorem State.resetCore_draws (s : State) : (s.resetCore).draws = s.draws := rfl

/-! ### SV -/

@[simp] theorem State.sv_setSt (s : State) (b : St) : (s.setSt b).sv = true := rfl
@[simp] theorem State.sv_discardSt (s : State) : s.discardSt.sv = false := rfl
@[simp] theorem State.sv_setRes (s : State) (v : Byte) : (s.setRes v).sv = s.sv := rfl
@[simp] theorem State.sv_setIn (s : State) (m : Memory) : (s.setIn m).sv = s.sv := rfl
@[simp] theorem State.sv_setOut (s : State) (m : Memory) (n : BitVec 16) : (s.setOut m n).sv = s.sv := rfl
@[simp] theorem State.sv_recordFault (s : State) (c : Cause) (w : CmdWord) : (s.recordFault c w).sv = s.sv := rfl
@[simp] theorem State.sv_setHost (s : State) (h : List HostAction) : (s.setHost h).sv = s.sv := rfl
@[simp] theorem State.sv_resetCore (s : State) : s.resetCore.sv = false := rfl

end Sys2Proof.Machine
end

