-- ==== Sys2Proof/Laws/Ops.lean ====
section
/-!
SUPPORT. What each shared operation can do, said once: an inversion lemma for "it answers next t", and what the operation is in
each case. Meanings and the step are taken apart with these and not unfolded.
-/

namespace Sys2Proof.Machine

/-! ### Faults and the sticky refusal -/

theorem raise_eq_next {c : Cause} {w : CmdWord} {s t : State} :
    raise c w s = .next t ↔ t = s.recordFault c w := by
  simp [raise, eq_comm]

theorem unlessFaulted_of_flt {s : State} (h : s.flt = true) (r : Result) : unlessFaulted s r = .next s := by
  simp [unlessFaulted, h]

theorem unlessFaulted_of_not_flt {s : State} (h : s.flt = false) (r : Result) : unlessFaulted s r = r := by
  simp [unlessFaulted, h]

theorem unlessFaulted_next_cases {s t : State} {r : Result} (h : unlessFaulted s r = .next t) :
    (s.flt = true ∧ t = s) ∨ (s.flt = false ∧ r = .next t) := by
  cases hf : s.flt
  · rw [unlessFaulted_of_not_flt hf] at h; exact .inr ⟨rfl, h⟩
  · rw [unlessFaulted_of_flt hf] at h; exact .inl ⟨rfl, by injection h with h; exact h.symm⟩

theorem onState_of_none {i : Instr} {s : State} (h : s.st = none) (f : St → State) :
    onState i s f = raise .stateInvalid (encode i) s := by
  simp [onState, h]

theorem onState_of_some {i : Instr} {s : State} {b : St} (h : s.st = some b) (f : St → State) :
    onState i s f = .next (f b) := by
  simp [onState, h]

theorem onState_next_cases {i : Instr} {s t : State} {f : St → State} (h : onState i s f = .next t) :
    (s.st = none ∧ t = s.recordFault .stateInvalid (encode i)) ∨ ∃ b, s.st = some b ∧ t = f b := by
  cases hb : s.st with
  | none => rw [onState_of_none hb] at h; exact .inl ⟨rfl, raise_eq_next.mp h⟩
  | some b => rw [onState_of_some hb] at h; exact .inr ⟨b, rfl, by injection h with h; exact h.symm⟩

/-! ### The host's port -/

theorem step_idle {s : State} (h : s.host = []) : step s = .next s := by simp [step, takeAction, h]

theorem step_action {s : State} {a : HostAction} {rest : List HostAction} (h : s.host = a :: rest) :
    step s = hostAct a (s.setHost rest) := by
  simp [step, takeAction, h]

theorem issueWord_ok {w : CmdWord} {i : Instr} (h : decode w = .ok i) (s : State) : issueWord w s = exec i s := by
  simp [issueWord, h]

theorem issueWord_error {w : CmdWord} {e : DecodeError} (h : decode w = .error e) (s : State) :
    issueWord w s = unlessFaulted s (raise .illegalCmd w s) := by
  simp [issueWord, h]

/-- What a host action can do when the run goes on. -/
theorem hostAct_next_cases {a : HostAction} {s t : State} (h : hostAct a s = .next t) :
    (∃ w, a = .issue w ∧ issueWord w s = .next t) ∨
    (a = .reset ∧ t = s.resetCore) ∨
    (∃ w, a = .abandon w ∧ t = abandonWord w s) ∨
    (∃ buf bytes, a = .fill buf bytes ∧ bytes.length ≤ buf.maxLen ∧
      t = (s.setHostBuf buf ((s.hostBuf buf).writeBytes 0 bytes)).driveLength buf bytes.length) ∨
    (∃ buf idx v, a = .poke buf idx v ∧ idx < buf.maxLen ∧ t = s.setHostBuf buf ((s.hostBuf buf).write idx v)) ∨
    (∃ n, a = .driveKlen n ∧ t = { s with klen := n }) ∨
    (∃ n, a = .driveVlen n ∧ t = { s with vlen := n }) ∨
    (∃ n, a = .driveLen n ∧ t = { s with len := n }) := by
  cases a with
  | issue w => exact .inl ⟨w, rfl, h⟩
  | reset => injection h with h; exact .inr (.inl ⟨rfl, h.symm⟩)
  | abandon w => injection h with h; exact .inr (.inr (.inl ⟨w, rfl, h.symm⟩))
  | fill buf bytes =>
    simp only [hostAct, fillBuffer] at h
    split at h
    · injection h with h; exact .inr (.inr (.inr (.inl ⟨buf, bytes, rfl, ‹_›, h.symm⟩)))
    · cases h
  | poke buf idx v =>
    simp only [hostAct, pokeBuffer] at h
    split at h
    · injection h with h; exact .inr (.inr (.inr (.inr (.inl ⟨buf, idx, v, rfl, ‹_›, h.symm⟩))))
    · cases h
  | driveKlen n => injection h with h; exact .inr (.inr (.inr (.inr (.inr (.inl ⟨n, rfl, h.symm⟩)))))
  | driveVlen n => injection h with h; exact .inr (.inr (.inr (.inr (.inr (.inr (.inl ⟨n, rfl, h.symm⟩))))))
  | driveLen n => injection h with h; exact .inr (.inr (.inr (.inr (.inr (.inr (.inr ⟨n, rfl, h.symm⟩))))))

/-- What an abandoned command leaves: the reset core, and IN as it was or partly written. -/
theorem abandonWord_cases (w : CmdWord) (s : State) :
    abandonWord w s = s.resetCore ∨
    (decode w = .ok .cipherIp ∧ s.flt = false ∧ s.cipherSizeBad = false ∧
      abandonWord w s = { s.resetCore with inBuf := s.abandonedIn, draws := s.draws + 1 }) := by
  cases hd : decode w with
  | error e => simp [abandonWord, hd]
  | ok i =>
    cases i <;> simp only [abandonWord, hd, reduceCtorEq, Except.ok.injEq, false_and, or_false, true_and]
    cases s.flt <;> cases s.cipherSizeBad <;> simp

/-! ### The lengths -/

theorem keyIvSizeBad_eq_false {s : State} : s.keyIvSizeBad = false ↔ s.klen.toNat = 10 ∧ s.vlen.toNat = 10 := by
  simp [State.keyIvSizeBad]

theorem cipherSizeBad_eq_false {s : State} :
    s.cipherSizeBad = false ↔
      (s.klen.toNat = 10 ∧ s.vlen.toNat = 10) ∧ 1 ≤ s.len.toNat ∧ s.len.toNat ≤ s.cfg.bufmax := by
  simp only [State.cipherSizeBad, Bool.or_eq_false_iff, keyIvSizeBad_eq_false, beq_eq_false_iff_ne,
    decide_eq_false_iff_not]
  omega

/-- The result of a CIPHER command has the length of its input. -/
theorem length_xorStage (M : List Byte) (b : St) : (xorStage M b).1.length = M.length := by
  induction M generalizing b with
  | nil => rfl
  | cons m M ih => simp [xorStage, ih]

theorem length_cipherBytes (s : State) : s.cipherBytes.length = s.len.toNat := by
  simp [State.cipherBytes, cipher, length_xorStage, State.inBytes]

end Sys2Proof.Machine
end

