-- ==== Sys2Proof/Laws/Packed.lean ====
section
/-!
SUPPORT. A second description of the clock step on one natural number whose bit `i` is the flat bit `S[i]`, proved to compute
what the spec's byte procedure computes. It runs in the kernel, so that the spec's long vectors (95_test_vectors.md
sections 6 and 7) can be tests. The model does not use it.
-/

namespace Sys2Proof.Machine.Packed

/-- Number `x` holds the 288 flat bits of the register `b`. -/
abbrev Holds (x : Nat) (b : St) : Prop := ∀ i : Fin 288, x.testBit i.val = getbit b i.val i.isLt

/-- A number with bit `i` set exactly when `v`. -/
def bitIf (v : Bool) (i : Nat) : Nat := if v then 2 ^ i else 0

theorem testBit_bitIf (v : Bool) (i j : Nat) : (bitIf v i).testBit j = (v && decide (i = j)) := by
  cases v <;> simp [bitIf, Nat.testBit_two_pow]

/-- The emitted bit (43_keystream_core.md R105). -/
def z (x : Nat) : Bool :=
  x.testBit 65 ^^ x.testBit 92 ^^ x.testBit 161 ^^ x.testBit 176 ^^ x.testBit 242 ^^ x.testBit 287

/-- The state after one clock step: every bit one up, and the three bits the rotation brought to the injection offsets
replaced (43_keystream_core.md R105). -/
def next (x : Nat) : Nat :=
  (x <<< 1) % 2 ^ 288
    ^^^ bitIf (x.testBit 242 ^^ x.testBit 287 ^^ (x.testBit 285 && x.testBit 286) ^^ x.testBit 68) 0
    ^^^ bitIf (x.testBit 65 ^^ (x.testBit 90 && x.testBit 91) ^^ x.testBit 170) 93
    ^^^ bitIf (x.testBit 161 ^^ (x.testBit 174 && x.testBit 175) ^^ x.testBit 263) 177

theorem holds_bit {x : Nat} {b : St} (h : Holds x b) (i : Nat) (hi : i < 8 * 36) : x.testBit i = getbit b i hi :=
  h ⟨i, hi⟩

theorem z_eq {x : Nat} {b : St} (h : Holds x b) : z x = (clock b).1 := by
  simp [z, clock, taps, holds_bit h]

theorem holds_next {x : Nat} {b : St} (h : Holds x b) : Holds (next x) (clock b).2 := by
  rintro ⟨i, hi⟩
  have hi8 : i < 8 * 36 := hi
  simp only [getbit_clock, next, Nat.testBit_xor, Nat.testBit_mod_two_pow, Nat.testBit_shiftLeft, testBit_bitIf, taps,
    ← holds_bit h]
  split_ifs with h1 h2 h3
  · rw [h1]
    simp only [show (decide (177 < 288)) = true by decide, show decide (177 ≥ 1) = true by decide,
      show decide (0 = 177) = false by decide, show decide (93 = 177) = false by decide, decide_true,
      Bool.and_false, Bool.and_true, Bool.true_and, Bool.xor_false]
    generalize (x.testBit 174 && x.testBit 175) = g
    cases x.testBit 161 <;> cases x.testBit (177 - 1) <;> cases g <;> simp
  · rw [h2]
    simp only [show (decide (93 < 288)) = true by decide, show decide (93 ≥ 1) = true by decide,
      show decide (0 = 93) = false by decide, show decide (177 = 93) = false by decide, decide_true,
      Bool.and_false, Bool.and_true, Bool.true_and, Bool.xor_false]
    generalize (x.testBit 90 && x.testBit 91) = g
    cases x.testBit 65 <;> cases x.testBit (93 - 1) <;> cases g <;> simp
  · rw [h3]; simp
  · simp [hi, Ne.symm h1, Ne.symm h2, Ne.symm h3, show 1 ≤ i by omega]

/-- `count` clock steps; the case split on the number makes the kernel compute it before it goes on. -/
def iterate : (count : Nat) → Nat → Nat
  | 0, x => x
  | count + 1, x =>
    match next x with
    | 0 => iterate count 0
    | y + 1 => iterate count (y + 1)

theorem holds_iterate (n : Nat) {x : Nat} {b : St} (h : Holds x b) : Holds (iterate n x) (iterateClock n b) := by
  induction n generalizing x b with
  | zero => exact h
  | succ n ih =>
    have : iterate (n + 1) x = iterate n (next x) := by
      rw [iterate]; cases next x <;> rfl
    rw [this]
    exact ih (holds_next h)

/-- The keystream byte of `x`, a natural number. -/
def ksbyteFrom (acc : Nat) (x : Nat) : (count : Nat) → Nat
  | 0 => acc
  | count + 1 =>
    match next x with
    | 0 => ksbyteFrom (2 * acc + (z x).toNat) 0 count
    | y + 1 => ksbyteFrom (2 * acc + (z x).toNat) (y + 1) count

theorem ksbyteFrom_eq (acc : Nat) {x : Nat} {b : St} (h : Holds x b) (n : Nat) :
    (Machine.ksbyteFrom (BitVec.ofNat 8 acc) b n).1 = BitVec.ofNat 8 (ksbyteFrom acc x n) := by
  induction n generalizing acc x b with
  | zero => rfl
  | succ n ih =>
    have hs : ksbyteFrom acc x (n + 1) = ksbyteFrom (2 * acc + (z x).toNat) (next x) n := by
      rw [ksbyteFrom]; cases next x <;> rfl
    rw [hs, ← ih _ (holds_next h), Machine.ksbyteFrom, z_eq h]
    congr 2
    have : ∀ v : Bool, (BitVec.ofNat 8 acc <<< 1) ||| zext8 v = BitVec.ofNat 8 (2 * acc + v.toNat) := by
      intro v
      have h2 : BitVec.ofNat 8 (2 * acc + v.toNat) = BitVec.ofNat 8 acc + BitVec.ofNat 8 acc + zext8 v := by
        apply BitVec.eq_of_toNat_eq
        cases v <;> simp [zext8, BitVec.toNat_add] <;> omega
      rw [h2]
      generalize BitVec.ofNat 8 acc = a
      clear h2
      revert a v
      decide
    exact this _

/-- The keystream bytes of `x`, eight clock steps each. -/
def keystream : (count : Nat) → Nat → List Nat
  | 0, _ => []
  | count + 1, x => ksbyteFrom 0 x 8 :: keystream count (iterate 8 x)

theorem xorStage_eq (M : List Byte) {x : Nat} {b : St} (h : Holds x b) :
    (xorStage M b).1 = List.zipWith (fun m k => m ^^^ BitVec.ofNat 8 k) M (keystream M.length x) := by
  induction M generalizing x b with
  | nil => rfl
  | cons m M ih =>
    have h1 := ksbyteFrom_eq 0 h 8
    have h2 : Holds (iterate 8 x) (ksbyte b).2 := by
      rw [ksbyte, ksbyteFrom_snd]; exact holds_iterate 8 h
    simp only [xorStage, List.length_cons, keystream, List.zipWith_cons_cons, ih h2]
    congr 2

/-- Registers that one number holds are equal. -/
theorem eq_of_holds {x : Nat} {b c : St} (hb : Holds x b) (hc : Holds x c) : b = c :=
  buffer_ext_bits fun i hi => (holds_bit hb i hi).symm.trans (holds_bit hc i hi)

/-- The number that holds a register. -/
def pack (b : St) : Nat := (List.finRange 288).foldr (fun i x => x ^^^ bitIf (getbit b i.val i.isLt) i.val) 0

theorem holds_pack (b : St) : Holds (pack b) b := by
  intro i
  have key : ∀ l : List (Fin 288), l.Nodup →
      (l.foldr (fun i x => x ^^^ bitIf (getbit b i.val i.isLt) i.val) 0).testBit i.val
        = (decide (i ∈ l) && getbit b i.val i.isLt) := by
    intro l
    induction l with
    | nil => simp
    | cons j l ih =>
      intro hl
      obtain ⟨hj, hl⟩ := List.nodup_cons.mp hl
      rw [List.foldr_cons, Nat.testBit_xor, ih hl, testBit_bitIf]
      by_cases hij : i = j
      · subst hij; simp [hj]
      · simp [hij, Ne.symm (Fin.val_ne_of_ne hij)]
  rw [pack, key _ (List.nodup_finRange 288)]
  simp

end Sys2Proof.Machine.Packed
end

