-- ==== Sys2Proof/Laws/PerInstr.lean ====
section
/-!
SUPPORT. Facts about every command as syntax, one lemma per constructor. Family `EncodeMatchesRow`: the encoder's word matches the
command's own row of the opcode map (30_encoding.md R53).
-/

namespace Sys2Proof.Laws.EncodeMatchesRow

/-- The encoding of `i` matches `i`'s row. -/
def Statement (i : Instr) : Prop := i.row.isMatch (encode i)

theorem getbit (off : BitVec 9) : Statement (.getbit off) := by
  have h : ∀ off : BitVec 9, (Instr.getbit off).row.isMatch (encode (.getbit off)) := by decide +kernel
  exact h off

theorem putbit (off : BitVec 9) (v : Bool) : Statement (.putbit off v) := by
  have h : ∀ v, ∀ off : BitVec 9, (Instr.putbit off v).row.isMatch (encode (.putbit off v)) := by decide +kernel
  exact h v off

theorem xwf (k : BitVec 6) (n : BitVec 3) : Statement (.xwf k n) := by
  have h : ∀ k : BitVec 6, ∀ n : BitVec 3, (Instr.xwf k n).row.isMatch (encode (.xwf k n)) := by decide +kernel
  exact h k n

theorem xwb (k : BitVec 6) (n : BitVec 3) : Statement (.xwb k n) := by
  have h : ∀ k : BitVec 6, ∀ n : BitVec 3, (Instr.xwb k n).row.isMatch (encode (.xwb k n)) := by decide +kernel
  exact h k n

theorem setup : Statement .setup := by unfold Statement; decide
theorem rot1 : Statement .rot1 := by unfold Statement; decide
theorem clock : Statement .clock := by unfold Statement; decide
theorem ksbyte : Statement .ksbyte := by unfold Statement; decide
theorem warmup : Statement .warmup := by unfold Statement; decide
theorem cipherIp : Statement .cipherIp := by unfold Statement; decide
theorem cipherCp : Statement .cipherCp := by unfold Statement; decide

end Sys2Proof.Laws.EncodeMatchesRow
end

