-- ==== Sys2Proof/Laws/Run.lean ====
section
/-!
SUPPORT. What `runProgram` can answer, one step at a time, and that a run is a run of its parts.
-/

namespace Sys2Proof.Machine

/-- A latched fault ends the run where it is. -/
theorem runProgram_of_flt {s : State} (h : s.flt = true) (n : Nat) : runProgram n s = .faulted s := by
  cases n <;> simp [runProgram, h]

theorem runProgram_zero {s : State} (h : s.flt = false) : runProgram 0 s = .completed s := by simp [runProgram, h]

/-- An unfaulted core goes on from where the next interaction leads. -/
theorem runProgram_next {s t : State} (h : s.flt = false) (ha : s.abandonsNext = false) (hs : step s = .next t) (n : Nat) :
    runProgram (n + 1) s = runProgram n t := by simp [runProgram, h, hs, ha]

/-- All that a completed run of one interaction more can be. -/
theorem runProgram_succ_completed {n : Nat} {s t : State} (h : runProgram (n + 1) s = .completed t) :
    s.flt = false ∧ s.abandonsNext = false ∧ ∃ u, step s = .next u ∧ runProgram n u = .completed t := by
  unfold runProgram at h
  split at h
  · cases h
  · split at h
    · split at h
      · cases h
      · exact ⟨by simpa using ‹¬ s.flt = true›, by simpa using ‹¬ s.abandonsNext = true›, _, ‹_›, h⟩
    · cases h
    · cases h

/-- A completed run ends unfaulted. -/
theorem runProgram_completed_flt {n : Nat} {s t : State} (h : runProgram n s = .completed t) : t.flt = false := by
  induction n generalizing s with
  | zero =>
    unfold runProgram at h
    split at h
    · cases h
    · rename_i hf
      rw [← RunEnd.completed.inj h]
      simpa using hf
  | succ n ih =>
    obtain ⟨-, -, u, -, hu⟩ := runProgram_succ_completed h
    exact ih hu

/-- A run goes on from the end of its completed first part. -/
theorem runProgram_add {m : Nat} {s u : State} (h : runProgram m s = .completed u) (k : Nat) :
    runProgram (m + k) s = runProgram k u := by
  induction m generalizing s with
  | zero =>
    unfold runProgram at h
    split at h
    · cases h
    · rw [Nat.zero_add, RunEnd.completed.inj h]
  | succ m ih =>
    obtain ⟨hf, ha, v, hs, hv⟩ := runProgram_succ_completed h
    rw [show m + 1 + k = m + k + 1 by omega, runProgram_next hf ha hs, ih hv]

end Sys2Proof.Machine
end

