-- ==== Sys2Proof/Tests/Slice0.lean ====
section
/-!
SUPPORT. Tests of the model against the spec's own vectors (95_test_vectors.md; the section stands beside each test), the smoke test
of WellFormed, and for each obligation with hypotheses a concrete case that meets them.
-/

namespace Sys2Proof.Tests

open Sys2Proof.Machine

/-! ### Concrete states -/

/-- KA (95_test_vectors.md). -/
def ka : Vector Byte 10 := #v[0x01, 0x23, 0x45, 0x67, 0x89, 0xAB, 0xCD, 0xEF, 0x10, 0x32]
/-- VA. -/
def va : Vector Byte 10 := #v[0xFE, 0xDC, 0xBA, 0x98, 0x76, 0x54, 0x32, 0x10, 0x0F, 0xF0]
/-- Z. -/
def zz : Vector Byte 10 := Vector.replicate 10 0x00
/-- SA = setup(KA, VA), as the spec prints it. -/
def sa : St := #v[0x01, 0x23, 0x45, 0x67, 0x89, 0xAB, 0xCD, 0xEF, 0x10, 0x32, 0x00, 0x07, 0xF6, 0xE5, 0xD4, 0xC3, 0xB2, 0xA1, 0x90,
  0x80, 0x7F, 0x80, 0, 0, 0, 0, 0, 0, 0, 0, 0, 0, 0, 0, 0, 0x07]
/-- The state after 1152 clocks from setup(Z, Z) (section 6.1). -/
def warmZ : St := #v[0xA1, 0x58, 0xC9, 0x2E, 0xB8, 0x67, 0x54, 0x96, 0x37, 0x1C, 0xD8, 0x45, 0x1A, 0x02, 0x75, 0x02, 0x04, 0xC8, 0x21,
  0x57, 0xF4, 0xB5, 0x28, 0xAF, 0xB6, 0x91, 0x85, 0xCB, 0x8E, 0x1A, 0xFE, 0x64, 0x7E, 0x12, 0x35, 0x49]

/-- The state after one clock from SA (section 5.2). -/
def saClocked : St := #v[0x00, 0x91, 0xA2, 0xB3, 0xC4, 0xD5, 0xE6, 0xF7, 0x88, 0x19, 0x00, 0x03, 0xFB, 0x72, 0xEA, 0x61, 0xD9, 0x50, 0xC8,
  0x40, 0x3F, 0xC0, 0x40, 0, 0, 0, 0, 0, 0, 0, 0, 0, 0, 0, 0, 0x03]

/-- The core after reset, the host holding KA and VA and four input bytes (section 7.5). -/
def keyed : State := { State.reset with
  keyBuf := Memory.writeBytes [] 0 ka.toList, ivBuf := Memory.writeBytes [] 0 va.toList, klen := 10#8, vlen := 10#8,
  inBuf := Memory.writeBytes [] 0 [0x54, 0x72, 0x69, 0x76], len := 4#16 }
/-- The same with ST = SA. -/
def withSa : State := { keyed with st := some sa }
/-- The same with an all-zero key, IV and input. -/
def zeroKeyed : State := { keyed with keyBuf := [], ivBuf := [], inBuf := [] }
/-- The first four bytes of section 6.1's ciphertext, as contents of a buffer. -/
def zeroCipher : Memory := [(0, 0xDF#8), (1, 0x07#8), (2, 0xFD#8), (3, 0x64#8)]
/-- A faulted core. -/
def faulted : State := { keyed with flt := true, cause := .stateInvalid, fcmd := 0x111D#16 }

/-- The state a command ends in. -/
def after (i : Instr) (s : State) : State :=
  match exec i s with
  | .next t => t
  | _ => s
/-- The state a word presented by the host ends in, and whether the step reached one. -/
def afterWord (w : CmdWord) (s : State) : Option State :=
  match step (s.withFetchWord 16 w.toNat) with
  | .next t => some t
  | _ => none
/-- FLT, CAUSE and FCMD as the host reads them, after a word. -/
def faultOf (w : CmdWord) (s : State) : Option (Bool × Nat × CmdWord) :=
  (afterWord w s).map fun t => (t.flt, t.causeCode.toNat, t.fcmd)

/-! ### WellFormed: an ill-formed term for each check (30_encoding.md R52) -/

theorem test_wf_refuses_each_operand_out_of_range :
    (Instr.getbit 288).wf = false ∧ (Instr.putbit 288 true).wf = false ∧
    (Instr.xwf 0 1).wf = false ∧ (Instr.xwf 36 1).wf = false ∧ (Instr.xwf 1 0).wf = false ∧
    (Instr.xwb 0 1).wf = false ∧ (Instr.xwb 36 1).wf = false ∧ (Instr.xwb 1 0).wf = false := by decide

theorem test_wf_accepts_the_ends_of_each_range :
    (Instr.getbit 0).wf = true ∧ (Instr.getbit 287).wf = true ∧ (Instr.putbit 287 false).wf = true ∧
    (Instr.xwf 1 1).wf = true ∧ (Instr.xwf 35 7).wf = true ∧ (Instr.xwb 1 7).wf = true ∧ (Instr.xwb 35 1).wf = true ∧
    Instr.setup.wf = true ∧ Instr.cipherCp.wf = true := by decide

/-! ### Decoding: words written out from the formats of 30_encoding.md R51 -/

theorem test_decode_getbit : decode 0b0001000100011101#16 = .ok (.getbit 285) := by decide
theorem test_decode_putbit : decode 0b0010001100011000#16 = .ok (.putbit 280 true) := by decide
theorem test_decode_xwf : decode 0b0011000011001100#16 = .ok (.xwf 12 3) := by decide
theorem test_decode_xwb : decode 0b0100000011001101#16 = .ok (.xwb 13 3) := by decide
theorem test_decode_setup : decode 0b0101000000000000#16 = .ok .setup := by decide
theorem test_decode_rot1 : decode 0b0110000000000000#16 = .ok .rot1 := by decide
theorem test_decode_clock : decode 0b0111000000000000#16 = .ok .clock := by decide
theorem test_decode_ksbyte : decode 0b1000000000000000#16 = .ok .ksbyte := by decide
theorem test_decode_warmup : decode 0b1001000000000000#16 = .ok .warmup := by decide
theorem test_decode_cipherIp : decode 0b1010000000000000#16 = .ok .cipherIp := by decide
theorem test_decode_cipherCp : decode 0b1011000000000000#16 = .ok .cipherCp := by decide

theorem test_decode_rejects_by_name :
    decode 0x0000#16 = .error (.reservedOpcode 0) ∧ decode 0xC000#16 = .error (.reservedOpcode 0xC) ∧
    decode 0xFFFF#16 = .error (.reservedOpcode 0xF) ∧ decode 0x131D#16 = .error (.nonZeroMbz 1) ∧
    decode 0x2405#16 = .error (.nonZeroMbz 2) ∧ decode 0x3E45#16 = .error (.nonZeroMbz 3) ∧
    decode 0x5001#16 = .error (.nonZeroMbz 5) := by decide

theorem test_decodeTableWord : decodeTableWord 16 0x111D = some (.getbit 285) ∧ decodeTableWord 16 0xC000 = none := by decide

theorem test_opcode_rows_are_disjoint :
    opcodeMap.Pairwise fun a b => a.matchBits &&& b.mask ≠ b.matchBits &&& a.mask := by decide

/-! ### The commands -/

/-- Section 2.2. -/
theorem test_getbit_on_sa : [0, 7, 92, 93, 172, 284, 285, 287].map (fun off => (after (.getbit off) withSa).res) =
    [0, 1, 0, 1, 0, 0, 1, 1] := by decide +kernel

/-- Section 2.2; RES and ST unchanged. -/
theorem test_getbit_288_faults : after (.getbit 288) withSa = { withSa with flt := true, cause := .offset, fcmd := 0x1120#16 } := by
  decide +kernel

/-- Section 2.2. -/
theorem test_putbit_on_sa :
    (after (.putbit 280 true) withSa).st = some (sa.set 35 0x87#8) ∧ (after (.putbit 287 false) withSa).st = some (sa.set 35 0x06#8) ∧
    (after (.putbit 0 true) withSa).st = some (sa.set 0 0x81#8) := by decide +kernel

/-- Section 3.3. -/
theorem test_xwf_on_sa :
    (after (.xwf 2 4) withSa).st = some ((sa.set 1 0x02#8).set 2 0x35#8) ∧
    (after (.xwf 12 3) withSa).st = some ((sa.set 11 0x00#8).set 12 0xF6#8) ∧
    (after (.xwf 35 1) withSa).st = some sa := by decide +kernel

/-- Section 3.3. -/
theorem test_xwb_on_sa :
    (after (.xwb 13 3) withSa).st = some ((sa.set 12 0xF7#8).set 13 0x28#8) ∧
    (after (.xwb 12 3) withSa).st = some ((sa.set 11 0x07#8).set 12 0xB0#8) := by decide +kernel

/-- Section 3.1, n = 1, 3 and 7, and section 3.2, replace and not OR. -/
theorem test_crosswrites_on_pairs :
    xwf #v[0xB5#8, 0x3C#8] 1 1 (by decide) = #v[0x5A#8, 0xBC#8] ∧ xwf #v[0xB5#8, 0x3C#8] 1 7 (by decide) = #v[0x01#8, 0x6A#8] ∧
    xwb #v[0xB5#8, 0x3C#8] 1 3 (by decide) = #v[0xB1#8, 0xE0#8] ∧ xwb #v[0xB5#8, 0x3C#8] 1 7 (by decide) = #v[0x9E#8, 0x00#8] ∧
    xwf #v[0x00#8, 0xFF#8] 1 3 (by decide) = #v[0x00#8, 0x1F#8] ∧ xwb #v[0xFF#8, 0x00#8] 1 3 (by decide) = #v[0xF8#8, 0x00#8] := by
  decide +kernel

/-- Section 4: SA; SV becomes 1 and nothing else changes. -/
theorem test_setup_ka_va : after .setup keyed = withSa := by decide +kernel

/-- Section 4: the row that tells this layout from the source's printed one (90_conflicts.md C1). -/
theorem test_setup_single_iv_bit :
    setup zz #v[0x80, 0, 0, 0, 0, 0, 0, 0, 0, 0] =
      #v[0, 0, 0, 0, 0, 0, 0, 0, 0, 0, 0, 0x04, 0, 0, 0, 0, 0, 0, 0, 0, 0, 0, 0, 0, 0, 0, 0, 0, 0, 0, 0, 0, 0, 0, 0, 0x07] := by
  decide +kernel

/-- Section 5.1, third row: the old bit 287 does not come round. -/
theorem test_rot1_loses_bit_287 :
    (after .rot1 { withSa with st := some ((zeroSt.set 0 0x80#8).set 35 0x01#8) }).st = some (zeroSt.set 0 0x40#8) := by decide +kernel

/-- Section 5.2, row 1: RES = z = 0. -/
theorem test_clock_on_sa :
    after .clock { withSa with res := 0xFF#8 } = { withSa with res := 0x00#8, st := some saClocked } := by decide +kernel

/-- Section 5.3: the first keystream byte from SA is 5D. -/
theorem test_ksbyte_on_sa : (after .ksbyte withSa).res = 0x5D#8 := by
  have h : Packed.ksbyteFrom 0 (Packed.pack sa) 8 = 0x5D := by decide +kernel
  have h2 : (ksbyte sa).1 = BitVec.ofNat 8 (Packed.ksbyteFrom 0 (Packed.pack sa) 8) :=
    Packed.ksbyteFrom_eq 0 (Packed.holds_pack sa) 8
  rw [h] at h2
  exact h2

/-- Section 5.3: the state after 64 clocks from SA. -/
theorem test_64_clocks_from_sa : iterateClock 64 sa =
    #v[0x24, 0x68, 0xAC, 0xF1, 0x35, 0x79, 0xBD, 0xE4, 0x01, 0x23, 0x45, 0x67, 0x18, 0xB3, 0x6F, 0xC5, 0xC1, 0x63, 0xA2, 0x07, 0xF6,
      0xE5, 0xD9, 0x28, 0xD3, 0x26, 0xB5, 0xC3, 0x41, 0x40, 0x80, 0, 0, 0, 0, 0] := by
  refine Packed.eq_of_holds (Packed.holds_iterate 64 (Packed.holds_pack sa)) ?_
  decide +kernel

/-- Section 6.1: the state after the warm-up from setup(Z, Z). -/
theorem test_warmup_zero_key : warmup (setup zz zz) = warmZ := by
  have h : Packed.Holds (7 * 2 ^ 285) (setup zz zz) := by decide +kernel
  have h2 : Packed.iterate 1152 (7 * 2 ^ 285) = Packed.pack warmZ := by decide +kernel
  exact Packed.eq_of_holds (h2 ▸ Packed.holds_iterate 1152 h) (Packed.holds_pack warmZ)

/-- Section 6.1: the first four keystream bytes, the ciphertext of four zero bytes. -/
theorem test_cipher_zero_key : (cipher false zz zz [0, 0, 0, 0]).1 = [0xDF, 0x07, 0xFD, 0x64] := by
  have h : Packed.keystream 4 (Packed.pack warmZ) = [0xDF, 0x07, 0xFD, 0x64] := by decide +kernel
  have h2 := Packed.xorStage_eq [0, 0, 0, 0] (Packed.holds_pack warmZ)
  rw [show [(0 : Byte), 0, 0, 0].length = 4 from rfl, h] at h2
  rw [cipher, show order false zz = zz from rfl, test_warmup_zero_key, h2]
  decide

/-- The host's bytes are all zero, and the core holds a state that no CIPHER command looks at. -/
def zeroWithSa : State := { zeroKeyed with st := some sa }

theorem cipherBytes_zero_key : zeroWithSa.cipherBytes = [0xDF, 0x07, 0xFD, 0x64] := by
  rw [State.cipherBytes, show zeroWithSa.keyBytes = zz by decide +kernel, show zeroWithSa.ivBytes = zz by decide +kernel,
    show zeroWithSa.inBytes = [0, 0, 0, 0] by decide, show zeroWithSa.cfg.kivRev = false from rfl, test_cipher_zero_key]

/-- Section 7.5, with the bytes of section 6.1: OUT gets the result, OLEN is LEN, IN and RES stay, SV = 0. -/
theorem test_cipherCp_zero_key : exec .cipherCp zeroWithSa = .next { zeroKeyed with outBuf := zeroCipher, olen := 4#16 } := by
  rw [exec, execCipherCp, unlessFaulted_of_not_flt (by rfl), if_neg (by decide), cipherBytes_zero_key]
  rfl

/-- Section 7.5: IN gets the result, OUT and OLEN stay, SV = 0. -/
theorem test_cipherIp_zero_key : exec .cipherIp zeroWithSa = .next { zeroKeyed with inBuf := zeroCipher } := by
  rw [exec, execCipherIp, unlessFaulted_of_not_flt (by rfl), if_neg (by decide), cipherBytes_zero_key]
  rfl

/-- Section 4, last row: policy REVERSED reverses each of key and IV. -/
theorem test_order_reversed : setup (order true ka) (order true va) =
    #v[0x32, 0x10, 0xEF, 0xCD, 0xAB, 0x89, 0x67, 0x45, 0x23, 0x01, 0x00, 0x07, 0x80, 0x78, 0x81, 0x92, 0xA3, 0xB4, 0xC5, 0xD6, 0xE7,
      0xF0, 0, 0, 0, 0, 0, 0, 0, 0, 0, 0, 0, 0, 0, 0x07] := by decide +kernel

/-! ### Faults, reset, the host -/

/-- Section 10: one word each from reset. -/
theorem test_fault_vectors :
    [0x0000#16, 0xC000#16, 0xFFFF#16, 0x5001#16, 0x131D#16, 0x132C#16, 0x112C#16, 0x111D#16, 0x3000#16, 0x3042#16, 0x6000#16, 0x7000#16,
      0x8000#16, 0x9000#16].map (fun w => faultOf w keyed) =
    [some (true, 1, 0x0000#16), some (true, 1, 0xC000#16), some (true, 1, 0xFFFF#16), some (true, 1, 0x5001#16),
      some (true, 1, 0x131D#16), some (true, 1, 0x132C#16), some (true, 3, 0x112C#16), some (true, 5, 0x111D#16),
      some (true, 4, 0x3000#16), some (true, 5, 0x3042#16), some (true, 5, 0x6000#16), some (true, 5, 0x7000#16),
      some (true, 5, 0x8000#16), some (true, 5, 0x9000#16)] := by decide +kernel

/-- Section 10, the rows with other lengths, and section 3.3's words out of range. -/
theorem test_size_and_range_faults :
    [faultOf 0x5000#16 { keyed with klen := 9#8 }, faultOf 0x5000#16 { keyed with vlen := 11#8 },
      faultOf 0xA000#16 { keyed with len := 0#16 }, faultOf 0xB000#16 { keyed with len := 65#16 },
      faultOf 0xA001#16 { keyed with len := 0#16 }, faultOf 0x4064#16 withSa, faultOf 0x31FF#16 withSa] =
    [some (true, 2, 0x5000#16), some (true, 2, 0x5000#16), some (true, 2, 0xA000#16), some (true, 2, 0xB000#16),
      some (true, 1, 0xA001#16), some (true, 4, 0x4064#16), some (true, 4, 0x31FF#16)] := by decide +kernel

/-- Program P5: a command on a faulted core has no effect; reset clears the fault and keeps the host's buffers. -/
theorem test_fault_is_sticky_until_reset :
    after .setup faulted = faulted ∧ afterWord 0xC000#16 faulted = some faulted ∧ afterWord 0x5000#16 faulted = some faulted ∧
    faulted.resetCore = keyed := by decide +kernel

/-- 30_encoding.md R56: `.key 01 00 03` drives KLEN to 3; the zero byte is not listed. -/
theorem test_fill_key : hostAct (.fill .key [0x01, 0x00, 0x03]) State.reset =
    .next { State.reset with keyBuf := [(0, 0x01#8), (2, 0x03#8)], klen := 3#8 } := rfl

/-- With nothing presented the core stays as it is (log 3). -/
theorem test_idle : step State.reset = .next State.reset := rfl

/-- 10_state.md R22. -/
theorem test_reset_reads : State.reset.statusWord = 0#2 ∧ State.reset.causeCode = 0#4 ∧ State.reset.readSt 0 = none ∧
    State.reset.readOut 0 = none := by decide

/-! ### Witnesses: for each obligation with hypotheses, a case that meets them -/

theorem test_witness_EncodeOfDecodedIsTheWord : decode 0x30CC#16 = .ok (.xwf 12 3) ∧ encode (.xwf 12 3) = 0x30CC#16 := by decide

/-- A word for each clause, and for the last a word out of range. -/
theorem test_witness_IllegalWordsRaiseIllegalCmd :
    (∀ r ∈ opcodeMap, ¬ r.isMatch 0x5001#16) ∧ opcodeOf 0x0FFF#16 = 0x0 ∧ 0xC ≤ opcodeOf 0xC000#16 ∧
    (opcodeOf 0x4E00#16 ∈ [0x1, 0x3, 0x4] ∧ (0x4E00#16).toNat / 512 % 8 ≠ 0) ∧
    (opcodeOf 0x2400#16 = 0x2 ∧ (0x2400#16).toNat / 1024 % 4 ≠ 0) ∧
    (0x5 ≤ opcodeOf 0xB001#16 ∧ opcodeOf 0xB001#16 ≤ 0xB ∧ (0xB001#16).toNat % 4096 ≠ 0) ∧
    keyed.flt = false ∧ (keyed.withFetchWord 16 0x5001).host = .issue 0x5001#16 :: [] ∧
    decode 0x1120#16 = .ok (.getbit 288) ∧ (Instr.getbit 288).wf = false ∧
    (keyed.withFetchWord 16 0x1120).host = .issue 0x1120#16 :: [] := by decide

theorem test_witness_OperandFieldsAndTheirRanges :
    decode 0x111F#16 = .ok (.getbit 287) ∧ decode 0x2320#16 = .ok (.putbit 288 true) ∧ decode 0x31FF#16 = .ok (.xwf 63 7) ∧
    decode 0x4005#16 = .ok (.xwb 5 0) ∧ withSa.flt = false ∧ 288 ≤ (288 : BitVec 9).toNat ∧ (0 : BitVec 6).toNat = 0 ∧
    36 ≤ (36 : BitVec 6).toNat ∧ (0 : BitVec 3).toNat = 0 := by decide

theorem test_witness_StepRunsTheDecodedCommand :
    decode 0x7000#16 = .ok .clock ∧ ({ withSa with host := [.issue 0x7000#16, .reset] } : State).host = .issue 0x7000#16 :: [.reset] := by
  decide

/-- Both ends of the range of `off`, for 36 bytes and for one byte. -/
theorem test_witness_GetbitReadsTheWeightedBit :
    getbit sa 287 (by decide) = true ∧ 287 / 8 < 36 ∧ getbit sa 0 (by decide) = false ∧ 0 / 8 < 36 ∧
    getbit #v[0x01#8] 7 (by decide) = true ∧ 7 / 8 < 1 := by decide +kernel

theorem test_witness_PutbitReplacesOneBit :
    bitAt (putbit sa 287 false (by decide)) 287 = false ∧ bitAt (putbit sa 287 false (by decide)) 286 = true ∧
    bitAt (putbit sa 0 true (by decide)) 0 = true := by decide +kernel

theorem test_witness_AccessorLaws : (0 : Nat) < 8 * 36 ∧ (287 : Nat) < 8 * 36 ∧ (0 : Nat) ≠ 287 ∧ (35 : Nat) < 36 := by decide

/-- off = 287 and 288, with and without a state. -/
theorem test_witness_GetbitCommand :
    withSa.flt = false ∧ 287 < (288 : BitVec 9).toNat ∧ (287 : BitVec 9).toNat ≤ 287 ∧ keyed.flt = false ∧ keyed.sv = false ∧
    withSa.st = some sa ∧ (opcodeOf 0x1200#16 = 0x1 ∧ (0x1200#16).toNat / 512 % 8 ≠ 0) ∧
    (keyed.withFetchWord 16 0x1200).host = .issue 0x1200#16 :: [] := by decide

theorem test_witness_PutbitCommand :
    withSa.flt = false ∧ 287 < (288 : BitVec 9).toNat ∧ (287 : BitVec 9).toNat ≤ 287 ∧ keyed.flt = false ∧ keyed.sv = false ∧
    withSa.st = some sa ∧ (opcodeOf 0x2400#16 = 0x2 ∧ (0x2400#16).toNat / 1024 % 4 ≠ 0) ∧
    (keyed.withFetchWord 16 0x2400).host = .issue 0x2400#16 :: [] := by decide

/-- The corners of a crosswrite's domain; the hypotheses of CrosswriteBytes, CrosswriteInFlatOffsets, CrosswriteReplacesAndKeeps
and of the first half of CrosswritesAreNotInverse. -/
theorem test_witness_CrosswriteBytes :
    XwRange 36 1 1 ∧ XwRange 36 1 7 ∧ XwRange 36 35 1 ∧ XwRange 36 35 7 ∧ (35 : Nat) < 36 ∧ 35 - 1 < 36 ∧ 1 - 1 < 36 := by decide

/-- For n = 1 and n = 7: each clause's `j` at both ends of its range. -/
theorem test_witness_CrosswriteInFlatOffsets :
    XwRange 36 35 1 ∧ 0 < 1 ∧ (1 ≤ 1 ∧ 1 ≤ 7) ∧ (1 ≤ 7 ∧ 7 ≤ 7) ∧ 6 < 8 - 1 ∧ (8 - 1 ≤ 7 ∧ 7 ≤ 7) ∧
    XwRange 36 1 7 ∧ 6 < 7 ∧ (7 ≤ 7 ∧ 7 ≤ 7) ∧ 0 < 8 - 7 ∧ (8 - 7 ≤ 1 ∧ 1 ≤ 7) := by decide

theorem test_witness_CrosswriteReplacesAndKeeps : XwRange 2 1 3 ∧ (1 : Nat) < 2 ∧ 1 - 1 < 2 := by decide

theorem test_witness_CrosswritesAreNotInverse :
    XwRange 36 12 3 ∧ 12 < 36 ∧ 12 - 1 < 36 ∧ (1 ≤ 1 ∧ 1 ≤ 7) ∧ XwRange 2 1 1 ∧ (1 ≤ 7 ∧ 7 ≤ 7) ∧ XwRange 2 1 7 := by decide

/-- k = 0, 1, 35, 36 and n = 0, 1, 7. -/
theorem test_witness_XwfCommand :
    withSa.flt = false ∧ (0 : BitVec 6).toNat = 0 ∧ 35 < (36 : BitVec 6).toNat ∧ (0 : BitVec 3).toNat = 0 ∧
    1 ≤ (1 : BitVec 6).toNat ∧ (35 : BitVec 6).toNat ≤ 35 ∧ 1 ≤ (1 : BitVec 3).toNat ∧ 1 ≤ (7 : BitVec 3).toNat ∧
    XwRange 36 (35 : BitVec 6).toNat (7 : BitVec 3).toNat ∧ keyed.flt = false ∧ keyed.sv = false ∧ withSa.st = some sa ∧
    (opcodeOf 0x3200#16 = 0x3 ∧ (0x3200#16).toNat / 512 % 8 ≠ 0) ∧
    (keyed.withFetchWord 16 0x3200).host = .issue 0x3200#16 :: [] := by decide

theorem test_witness_XwbCommand :
    withSa.flt = false ∧ (0 : BitVec 6).toNat = 0 ∧ 35 < (36 : BitVec 6).toNat ∧ (0 : BitVec 3).toNat = 0 ∧
    1 ≤ (1 : BitVec 6).toNat ∧ (35 : BitVec 6).toNat ≤ 35 ∧ 1 ≤ (1 : BitVec 3).toNat ∧
    XwRange 36 (1 : BitVec 6).toNat (7 : BitVec 3).toNat ∧ keyed.flt = false ∧ keyed.sv = false ∧ withSa.st = some sa ∧
    (opcodeOf 0x4200#16 = 0x4 ∧ (0x4200#16).toNat / 512 % 8 ≠ 0) ∧
    (keyed.withFetchWord 16 0x4200).host = .issue 0x4200#16 :: [] := by decide

/-- The lengths at 9, 10 and 11, and the host's ten bytes of key and IV. -/
theorem test_witness_SetupCommand :
    keyed.flt = false ∧ keyed.keyIvSizeOk ∧ TenBytesOf keyed.keyBuf ka ∧ TenBytesOf keyed.ivBuf va ∧
    ({ keyed with klen := 9#8 } : State).klen ≠ 10#8 ∧ ({ keyed with vlen := 11#8 } : State).vlen ≠ 10#8 ∧
    (opcodeOf 0x5001#16 = 0x5 ∧ (0x5001#16).toNat % 4096 ≠ 0) ∧
    (keyed.withFetchWord 16 0x5001).host = .issue 0x5001#16 :: [] := by decide +kernel

/-- Section 4's bits of SA, at the ends of each stretch of the layout. -/
theorem test_witness_SetupBitLayout :
    [0, 79, 80, 92, 93, 172, 173, 284, 285, 287].map (bitAt (setup ka va)) =
      [false, false, false, false, true, false, false, false, true, true] ∧
    (0 ≤ 79 ∧ 79 ≤ 79) ∧ (80 ≤ 80 ∧ 92 ≤ 92) ∧ (173 ≤ 173 ∧ 284 ≤ 284) ∧ (285 ≤ 285 ∧ 287 ≤ 287) := by decide +kernel

theorem test_witness_SetupByteForm :
    (0 < 10 ∧ 9 < 10) ∧ (8 < 9 ∧ 8 + 1 < 10 ∧ 12 + 8 < 36) ∧ (22 < 36 ∧ 22 ≤ 22 ∧ 22 ≤ 34) ∧ (34 < 36 ∧ 22 ≤ 34 ∧ 34 ≤ 34) := by decide

theorem test_witness_SetupInvariants : setup ka va = setup ka va ∧ bitAt (setup ka va) 93 = true ∧ (285 ≤ 285 ∧ 287 ≤ 287) :=
  ⟨rfl, by decide +kernel, by decide⟩

theorem test_witness_RotationMovesEveryBitUp : (1 ≤ 1 ∧ 1 ≤ 287) ∧ (1 ≤ 287 ∧ 287 ≤ 287) ∧ (35 < 36 ∧ 35 - 1 < 36 ∧ 1 ≤ 35) := by decide

theorem test_witness_RotationCommand :
    keyed.flt = false ∧ keyed.sv = false ∧ withSa.flt = false ∧ withSa.st = some sa ∧ (1 ≤ 287 ∧ 287 ≤ 287) ∧
    ({ withSa with host := List.replicate 288 (.issue 0x6000#16) } : State).host = List.replicate 288 (.issue 0x6000#16) ∧
    (opcodeOf 0x6001#16 = 0x6 ∧ (0x6001#16).toNat % 4096 ≠ 0) ∧
    (keyed.withFetchWord 16 0x6001).host = .issue 0x6001#16 :: [] := by
  refine ⟨rfl, rfl, rfl, rfl, by decide, rfl, by decide, rfl⟩

/-- `i` at the ends of the stretches between the three injected offsets; the hypotheses of ClockInFlatOffsets and of
ClockIsInvertible. -/
theorem test_witness_ClockInFlatOffsets :
    ∀ i ∈ [1, 92, 94, 176, 178, 287], 1 ≤ i ∧ i ≤ 287 ∧ i ≠ 93 ∧ i ≠ 177 := by decide

theorem test_witness_ClockIsInvertible : (1 ≤ 1 ∧ 1 ≤ 287 ∧ 1 ≠ 93 ∧ 1 ≠ 177) ∧ (1 ≤ 287 ∧ 287 ≤ 287 ∧ 287 ≠ 93 ∧ 287 ≠ 177) := by
  decide

theorem test_witness_ClockCommand :
    keyed.flt = false ∧ keyed.sv = false ∧ withSa.flt = false ∧ withSa.st = some sa ∧
    (opcodeOf 0x7FFF#16 = 0x7 ∧ (0x7FFF#16).toNat % 4096 ≠ 0) ∧ (keyed.withFetchWord 16 0x7FFF).host = .issue 0x7FFF#16 :: [] := by decide

/-- The host presents eight CLOCK words, and KSBYTE completes on the same state. -/
theorem test_witness_KeystreamByteCommand :
    keyed.flt = false ∧ keyed.sv = false ∧ withSa.flt = false ∧ withSa.st = some sa ∧ withSa.sv = true ∧
    (∀ s : State, s = { withSa with host := List.replicate 8 (.issue 0x7000#16) } →
      s.flt = false ∧ s.host = List.replicate 8 (.issue 0x7000#16) ∧ s.sv = true ∧ ∃ u, exec .ksbyte s = .next u) ∧
    (0 < 8 ∧ 7 < 8) ∧ (opcodeOf 0x8001#16 = 0x8 ∧ (0x8001#16).toNat % 4096 ≠ 0) ∧
    (keyed.withFetchWord 16 0x8001).host = .issue 0x8001#16 :: [] := by
  refine ⟨rfl, rfl, rfl, rfl, rfl, ?_, by decide, by decide, rfl⟩
  rintro s rfl
  exact ⟨rfl, rfl, rfl, _, rfl⟩

/-- Both ends of the buffer, and a core whose strap is REVERSED. -/
theorem test_witness_KeyIvByteOrder :
    (0 < 10 ∧ 9 - 0 < 10) ∧ (9 < 10 ∧ 9 - 9 < 10) ∧
    ∀ s : State, s = { keyed with cfg := ⟨true, 64⟩ } →
      s.flt = false ∧ s.keyIvSizeOk ∧ TenBytesOf s.keyBuf ka ∧ TenBytesOf s.ivBuf va := by
  refine ⟨by decide, by decide, ?_⟩
  rintro s rfl
  decide +kernel

theorem test_witness_WarmupCommand :
    keyed.flt = false ∧ keyed.sv = false ∧ withSa.flt = false ∧ withSa.st = some sa ∧ withSa.sv = true ∧
    ({ withSa with host := List.replicate 1152 (.issue 0x7000#16) } : State).host = List.replicate 1152 (.issue 0x7000#16) ∧
    (opcodeOf 0x9800#16 = 0x9 ∧ (0x9800#16).toNat % 4096 ≠ 0) ∧ (keyed.withFetchWord 16 0x9800).host = .issue 0x9800#16 :: [] := by
  refine ⟨rfl, rfl, rfl, rfl, rfl, rfl, by decide, rfl⟩

/-- The last byte of four, and both ends of `j`. -/
theorem test_witness_CipherIsXorWithKeystream :
    ([0, 0, 0, 0] : List Byte)[3]? = some 0x00 ∧ (cipher false zz zz [0, 0, 0, 0]).1[3]? = some 0x64 ∧ 0 < 8 ∧ 7 < 8 := by
  rw [test_cipher_zero_key]
  decide

/-- Two states that differ in everything but the strap and the host's bytes. -/
theorem test_witness_CipherProperties :
    ([0xFF, 0xFF] : List Byte).length = ([0x0F, 0x0F] : List Byte).length ∧
    ∀ t : State, t = { faulted with st := some sa, res := 0x01#8 } →
      keyed.cfg.kivRev = t.cfg.kivRev ∧ TenBytesOf keyed.keyBuf ka ∧ TenBytesOf t.keyBuf ka ∧ TenBytesOf keyed.ivBuf va ∧
      TenBytesOf t.ivBuf va ∧ BytesOf keyed.inBuf keyed.len.toNat [0x54, 0x72, 0x69, 0x76] ∧
      BytesOf t.inBuf t.len.toNat [0x54, 0x72, 0x69, 0x76] := by
  refine ⟨rfl, ?_⟩
  rintro t rfl
  decide +kernel

/-- LEN = 0, 1, BUFMAX and BUFMAX + 1; the bytes in the three buffers. -/
theorem test_witness_CipherInPlaceCommand :
    keyed.flt = false ∧ ({ keyed with klen := 16#8 } : State).klen ≠ 10#8 ∧ ({ keyed with len := 0#16 } : State).len = 0#16 ∧
    keyed.cfg.bufmax < ({ keyed with len := 65#16 } : State).len.toNat ∧ keyed.cipherSizeOk ∧
    ({ keyed with len := 1#16 } : State).cipherSizeOk ∧ ({ keyed with len := 64#16 } : State).cipherSizeOk ∧ keyed.inBuf.wf ∧
    TenBytesOf keyed.keyBuf ka ∧ TenBytesOf keyed.ivBuf va ∧ BytesOf keyed.inBuf keyed.len.toNat [0x54, 0x72, 0x69, 0x76] ∧
    keyed.len.toNat ≤ 4 ∧ (opcodeOf 0xA001#16 = 0xA ∧ (0xA001#16).toNat % 4096 ≠ 0) ∧
    (keyed.withFetchWord 16 0xA001).host = .issue 0xA001#16 :: [] := by decide +kernel

theorem test_witness_CipherCopyCommand :
    keyed.flt = false ∧ ({ keyed with vlen := 8#8 } : State).vlen ≠ 10#8 ∧ ({ keyed with len := 0#16 } : State).len = 0#16 ∧
    keyed.cfg.bufmax < ({ keyed with len := 65#16 } : State).len.toNat ∧ keyed.cipherSizeOk ∧
    ({ keyed with len := 1#16 } : State).cipherSizeOk ∧ ({ keyed with len := 64#16 } : State).cipherSizeOk ∧ keyed.outBuf.wf ∧
    TenBytesOf keyed.keyBuf ka ∧ TenBytesOf keyed.ivBuf va ∧ BytesOf keyed.inBuf keyed.len.toNat [0x54, 0x72, 0x69, 0x76] ∧
    keyed.len.toNat ≤ 4 ∧ (opcodeOf 0xB001#16 = 0xB ∧ (0xB001#16).toNat % 4096 ≠ 0) ∧
    (keyed.withFetchWord 16 0xB001).host = .issue 0xB001#16 :: [] := by decide +kernel

theorem test_witness_EndOfRunDiscardsTheState :
    withSa.flt = false ∧ withSa.cipherSizeOk ∧ Instr.cipherIp ∈ [Instr.cipherIp, .cipherCp] ∧
    Instr.cipherCp ∈ [Instr.cipherIp, .cipherCp] ∧ (Instr.getbit 287).wf = true ∧
    Instr.getbit 287 ∉ [Instr.setup, .cipherIp, .cipherCp] ∧ Instr.clock.wf = true ∧ Instr.clock ∉ [Instr.setup, .cipherIp, .cipherCp] ∧
    BytesOf withSa.inBuf withSa.len.toNat [0x54, 0x72, 0x69, 0x76] := by decide +kernel

/-- `p` under REVERSED, and `s` the same instance with the host's bytes reversed; and `p` under AS_GIVEN. -/
theorem test_witness_DriverFromItsParts : ∀ rev, ∃ s p u : State, p.cfg.kivRev = rev ∧ s.cfg = p.cfg ∧
    p.flt = false ∧ p.cipherSizeOk ∧ p.outBuf.wf ∧
    TenBytesOf p.keyBuf ka ∧ TenBytesOf p.ivBuf va ∧ exec .cipherCp p = .next u ∧ 3 < p.len.toNat ∧
    s.flt = false ∧ s.keyIvSizeOk ∧
    TenBytesOf s.keyBuf (order p.cfg.kivRev ka) ∧ TenBytesOf s.ivBuf (order p.cfg.kivRev va) ∧
    s.host = .issue 0x5000#16 :: .issue 0x9000#16 :: List.replicate (3 + 1) (.issue 0x8000#16) := by
  have run : ∀ p : State, p.flt = false → p.cipherSizeBad = false → ∃ u, exec .cipherCp p = .next u := by
    intro p hf hs
    rw [exec, execCipherCp, unlessFaulted_of_not_flt hf, hs]
    exact ⟨_, rfl⟩
  intro rev
  obtain ⟨u, hu⟩ := run { keyed with cfg := ⟨rev, 64⟩ } rfl (by cases rev <;> decide)
  refine ⟨{ keyed with
      cfg := ⟨rev, 64⟩
      keyBuf := Memory.writeBytes [] 0 (order rev ka).toList
      ivBuf := Memory.writeBytes [] 0 (order rev va).toList
      host := .issue 0x5000#16 :: .issue 0x9000#16 :: List.replicate 4 (.issue 0x8000#16) }, { keyed with cfg := ⟨rev, 64⟩ }, u, rfl, rfl,
    rfl, ?_, ?_, ?_, ?_, hu, ?_, rfl, ?_, ?_, ?_, rfl⟩ <;>
  cases rev <;> decide +kernel

theorem test_witness_InPlaceTwiceRestoresTheInput : withSa.flt = false ∧ withSa.cipherSizeOk ∧ withSa.inBuf.wf := by decide

theorem test_witness_CopyThenDecryptGivesTheInput : ∃ s s' t : State, s.flt = false ∧ s.cipherSizeOk ∧ s.outBuf.wf ∧
    exec .cipherCp s = .next t ∧ s'.flt = false ∧ s'.outBuf.wf ∧ s'.cfg = s.cfg ∧ s'.klen = s.klen ∧ s'.vlen = s.vlen ∧
    s'.len = s.len ∧ s'.keyBuf = s.keyBuf ∧ s'.ivBuf = s.ivBuf ∧
    ∀ idx, idx < s.len.toNat → t.readOut idx = some (s'.inBuf.read idx) := by
  refine ⟨zeroWithSa, { zeroKeyed with res := 0x01#8, inBuf := zeroCipher }, _, rfl, by decide, by decide, test_cipherCp_zero_key, rfl, by decide,
    rfl, rfl, rfl, rfl, rfl, rfl, ?_⟩
  decide

theorem test_witness_BuildersIgnoreTheOldState : withSa.flt = false ∧ withSa.keyIvSizeOk ∧ withSa.cipherSizeOk := by decide

theorem test_witness_FaultEntryIsPrecise : ∃ t, keyed.flt = false ∧ issueWord 0x6000#16 keyed = .next t ∧ t.flt = true :=
  ⟨_, rfl, rfl, rfl⟩

/-- A word for each cause, and one that raises none; a faulted state and one that is not. -/
theorem test_witness_FaultPriority :
    expectedCause 0x132C#16 keyed = .illegalCmd ∧ expectedCause 0x112C#16 keyed = .offset ∧ expectedCause 0x3000#16 keyed = .xwRange ∧
    expectedCause 0x5000#16 { keyed with klen := 9#8 } = .size ∧ expectedCause 0x111D#16 keyed = .stateInvalid ∧
    expectedCause 0x111D#16 withSa = .none ∧ faulted.flt = true ∧ keyed.flt = false := by decide

theorem test_witness_FaultIsSticky :
    faulted.flt = true ∧ ({ faulted with host := [.issue 0x5000#16] } : State).host = .issue 0x5000#16 :: [] := by decide

theorem test_witness_OnlyResetClearsAFault : ∃ s t : State, step s = .next t ∧ s.flt = true ∧ t.flt = false :=
  ⟨{ faulted with host := [.reset] }, _, rfl, rfl, rfl⟩

/-- SETUP on two states with different key bytes. -/
theorem test_witness_FaultsDoNotDependOnData : ∃ s s' t t' : State, s.keyBuf ≠ s'.keyBuf ∧ s.flt = s'.flt ∧ s.cause = s'.cause ∧
    s.fcmd = s'.fcmd ∧ s.sv = s'.sv ∧ s.klen = s'.klen ∧ s.vlen = s'.vlen ∧ s.len = s'.len ∧ s.cfg.bufmax = s'.cfg.bufmax ∧
    issueWord 0x5000#16 s = .next t ∧ issueWord 0x5000#16 s' = .next t' :=
  ⟨keyed, zeroKeyed, _, _, by decide, rfl, rfl, rfl, rfl, rfl, rfl, rfl, rfl, rfl, rfl⟩

theorem test_witness_ResetLeavesTheSpecValues : ({ faulted with host := [.reset] } : State).host = .reset :: [] := by decide

/-- A CIPHER.IP that would have run, and one that would have faulted. -/
theorem test_witness_AbandonedCommandLeavesResetState :
    keyed.inBuf.wf ∧ ({ keyed with host := [.abandon 0xA000#16] } : State).host = .abandon 0xA000#16 :: [] ∧
    decode 0xA000#16 = .ok .cipherIp ∧ keyed.flt = false ∧ keyed.cipherSizeOk ∧ 3 < keyed.len.toNat ∧
    ¬ ({ keyed with len := 0#16 } : State).cipherSizeOk := by decide

theorem inv_keyed : keyed.Inv :=
  { straps := by decide, keyWf := by decide, ivWf := by decide, inWf := by decide, outWf := by decide, keyWithin := by decide,
    ivWithin := by decide, inWithin := by decide, outWithin := by decide, olenLe := by decide, noFault := by decide,
    faulted := by decide }

/-- What the host does next is no part of the invariant. -/
theorem inv_host {s : State} (h : s.Inv) (l : List HostAction) : ({ s with host := l } : State).Inv :=
  ⟨h.straps, h.keyWf, h.ivWf, h.inWf, h.outWf, h.keyWithin, h.ivWithin, h.inWithin, h.outWithin, h.olenLe, h.noFault, h.faulted⟩

/-- States with the invariant: one that is about to run SETUP, and a faulted one. -/
theorem test_witness_StepKeepsTheInvariant : (∃ s t : State, s.Inv ∧ step s = .next t) ∧ faulted.Inv :=
  ⟨⟨{ keyed with host := [.issue 0x5000#16] }, _, inv_host inv_keyed _, rfl⟩,
    { inv_keyed with noFault := by decide, faulted := by decide }⟩

/-- SV rises by SETUP and falls by CIPHER.IP. -/
theorem test_witness_StateIsBuiltAndDiscardedOnlyByRule :
    (∃ s t : State, step s = .next t ∧ s.sv = false ∧ t.sv = true) ∧ ∃ s t : State, step s = .next t ∧ s.sv = true ∧ t.sv = false :=
  ⟨⟨{ keyed with host := [.issue 0x5000#16] }, _, rfl, rfl, rfl⟩, ⟨{ withSa with host := [.issue 0xA000#16] }, _, rfl, rfl, rfl⟩⟩

theorem test_witness_ResultRegisterWriters : ∃ s t : State, step s = .next t ∧ t.res ≠ s.res :=
  ⟨{ withSa with host := [.issue 0x111D#16] }, _, rfl, by decide⟩

theorem test_witness_OutputStaysValid : ∃ s t : State, step s = .next t ∧ t.readOut 0 = some 0xDF#8 :=
  ⟨{ withSa with outBuf := [(0, 0xDF#8)], olen := 1#16, host := [.issue 0x6000#16] }, _, rfl, rfl⟩

/-- A command that completes, from a state whose buffers are in canonical form. -/
theorem test_witness_CommandsWriteOnlyWhatTheirRulesName :
    ∀ i ∈ [Instr.getbit 287, .putbit 0 true, .xwf 35 7, .xwb 1 1, .setup, .rot1, .clock, .ksbyte, .warmup, .cipherIp, .cipherCp],
      withSa.inBuf.wf ∧ withSa.outBuf.wf ∧ ∃ t, exec i withSa = .next t ∧ t.flt = false := by
  intro i hi
  refine ⟨by decide, by decide, ?_⟩
  simp only [List.mem_cons, List.not_mem_nil, or_false] at hi
  rcases hi with rfl | rfl | rfl | rfl | rfl | rfl | rfl | rfl | rfl | rfl | rfl <;> exact ⟨_, rfl, rfl⟩

/-- The longest fills that go, and the shortest that do not. -/
theorem test_witness_HostFillsItsBuffers :
    (List.replicate 255 (0x01 : Byte)).length ≤ 255 ∧ (List.replicate 65535 (0x01 : Byte)).length ≤ 65535 ∧
    255 < (List.replicate 256 (0x01 : Byte)).length ∧ 65535 < (List.replicate 65536 (0x01 : Byte)).length ∧
    ∀ buf bytes, ({ keyed with host := [.fill buf bytes] } : State).Inv ∧
      ({ keyed with host := [.fill buf bytes] } : State).host = .fill buf bytes :: [] := by
  simp only [List.length_replicate]
  exact ⟨by omega, by omega, by omega, by omega, fun buf bytes => ⟨inv_host inv_keyed _, trivial⟩⟩

theorem test_witness_HostWritesOneByteOrOneDescriptor :
    254 < 255 ∧ 65534 < 65535 ∧ (if HostBuffer.key = .input then 65535 else 255) ≤ 255 ∧
    (if HostBuffer.input = .input then 65535 else 255) ≤ 65535 ∧
    ∀ a, ({ keyed with host := [a] } : State).Inv ∧ ({ keyed with host := [a] } : State).host = a :: [] := by
  exact ⟨by decide, by decide, by decide, by decide, fun a => ⟨inv_host inv_keyed _, rfl⟩⟩

/-- Each other host write reaches its own field (20_memory.md R39). -/
theorem test_host_writes :
    hostAct (.poke .input 1 0x00) keyed = .next { keyed with inBuf := [(0, 0x54#8), (2, 0x69#8), (3, 0x76#8)] } ∧
    hostAct (.driveVlen 8) keyed = .next { keyed with vlen := 8#8 } := ⟨rfl, rfl⟩

/-- 70_reset_and_hazards.md R181: a first command that faults ends the run there, and the reset after it does not make the run a
successful one. -/
theorem test_run_ends_at_a_fault :
    runProgram 2 { keyed with host := [.issue 0x7000#16, .reset] } =
      .faulted { keyed with host := [.reset], flt := true, cause := .stateInvalid, fcmd := 0x7000#16 } := by decide

/-- A run that completes, one whose last command then faults, and one that ended by a fault. -/
theorem test_witness_RunEndsAtTheFirstFault :
    (∃ s t, SuccessfulRun 2 s t) ∧ (∃ s t, s.flt = false ∧ runProgram 2 s = .faulted t) ∧
    (∃ s u t, SuccessfulRun 1 s u ∧ step u = .next t ∧ t.flt = true) ∧
    ∃ s u t w rest, SuccessfulRun 1 s u ∧ u.host = .issue w :: rest ∧ step u = .next t ∧ t.flt = false :=
  ⟨⟨{ keyed with host := [.issue 0x5000#16, .issue 0x111D#16] }, _, rfl⟩,
    ⟨{ keyed with host := [.issue 0x7000#16, .reset] }, _, rfl, test_run_ends_at_a_fault⟩,
    ⟨{ keyed with host := [.issue 0x5000#16, .issue 0x1120#16] }, _, _, rfl, rfl, rfl⟩,
    ⟨{ keyed with host := [.issue 0x5000#16, .issue 0x6000#16] }, _, _, _, _, rfl, rfl, rfl, rfl⟩⟩

theorem test_witness_HostReadsOnlyWhatHoldsAValue :
    keyed.sv = false ∧ withSa.st = some sa ∧ 0 < 36 ∧ 35 < 36 ∧
    0 < ({ keyed with olen := 1#16 } : State).olen.toNat ∧ ({ keyed with olen := 1#16 } : State).olen.toNat ≤ 1 := by decide

end Sys2Proof.Tests
end

section
/-!
DEFINITION. The terms the proofs about commands and steps are made in: a completed command, a fault taken, an untouched core.
`exec_next_cases`, `issueWord_next_cases` and `step_core_cases` tie them to the model.
-/

namespace Sys2Proof.Machine

/-- What each command makes of an unfaulted state when it completes, one constructor per command
(40_bit_accessor.md to 44_cipher_driver.md). -/
inductive Completes (s : State) : Instr → State → Prop
  | getbit {b : St} {off : BitVec 9} (hb : s.st = some b) (h : off.toNat < 8 * 36) :
      Completes s (.getbit off) (s.setRes (zext8 (getbit b off.toNat h)))
  | putbit {b : St} {off : BitVec 9} {v : Bool} (hb : s.st = some b) (h : off.toNat < 8 * 36) :
      Completes s (.putbit off v) (s.setSt (putbit b off.toNat v h))
  | xwf {b : St} {k : BitVec 6} {n : BitVec 3} (hb : s.st = some b) (h : XwRange 36 k.toNat n.toNat) :
      Completes s (.xwf k n) (s.setSt (xwf b k.toNat n.toNat h))
  | xwb {b : St} {k : BitVec 6} {n : BitVec 3} (hb : s.st = some b) (h : XwRange 36 k.toNat n.toNat) :
      Completes s (.xwb k n) (s.setSt (xwb b k.toNat n.toNat h))
  | setup (hk : s.keyIvSizeBad = false) : Completes s .setup (s.setSt (setup s.keyBytes s.ivBytes))
  | rot1 {b : St} (hb : s.st = some b) : Completes s .rot1 (s.setSt (rot1 b))
  | clock {b : St} (hb : s.st = some b) :
      Completes s .clock ((s.setSt (clock b).2).setRes (zext8 (clock b).1))
  | ksbyte {b : St} (hb : s.st = some b) :
      Completes s .ksbyte ((s.setSt (ksbyte b).2).setRes (ksbyte b).1)
  | warmup {b : St} (hb : s.st = some b) : Completes s .warmup (s.setSt (warmup b))
  | cipherIp (hc : s.cipherSizeBad = false) :
      Completes s .cipherIp (s.setIn (s.inBuf.writeBytes 0 s.cipherBytes)).discardSt
  | cipherCp (hc : s.cipherSizeBad = false) :
      Completes s .cipherCp (s.setOut (s.outBuf.writeBytes 0 s.cipherBytes) s.len).discardSt

/-- A fault the word `w` can raise is taken from `s` (60_exceptions.md R142, R144). -/
def FaultsOn (w : CmdWord) (s t : State) : Prop :=
  ∃ c, faultAllowed w c = true ∧ t = s.recordFault c w

/-- `t` differs from `s` at most in the host's buffers, descriptors and pending actions (10_state.md R13 to R15). -/
def SameCore (s t : State) : Prop :=
  t = { s with
    klen := t.klen, vlen := t.vlen, len := t.len, keyBuf := t.keyBuf, ivBuf := t.ivBuf, inBuf := t.inBuf, host := t.host }

end Sys2Proof.Machine
end

section
/-!
SUPPORT. The decoder and the encoder on the number of the command word (30_encoding.md R50 to R54), and that they are inverse.
-/

namespace Sys2Proof

/-! ### The command word and its number -/

/-- The number of two words side by side. -/
theorem toNat_append_eq_add {m n : Nat} (x : BitVec m) (y : BitVec n) :
    (x ++ y).toNat = x.toNat * 2 ^ n + y.toNat := by
  rw [BitVec.toNat_append, ← Nat.shiftLeft_add_eq_or_of_lt y.isLt, Nat.shiftLeft_eq]

theorem toNat_encode_getbit (off : BitVec 9) : (encode (.getbit off)).toNat = 0x1000 + off.toNat :=
  toNat_append_eq_add 0b0001000#7 off

theorem toNat_encode_putbit (off : BitVec 9) (v : Bool) :
    (encode (.putbit off v)).toNat = 0x2000 + 512 * v.toNat + off.toNat := by
  have hfields := toNat_append_eq_add 0b001000#6 (BitVec.ofBool v)
  have hword : (encode (.putbit off v)).toNat = (0b001000#6 ++ BitVec.ofBool v).toNat * 2 ^ 9 + off.toNat :=
    toNat_append_eq_add _ off
  simp only [BitVec.toNat_ofBool, BitVec.toNat_ofNat] at hfields
  omega

theorem toNat_encode_xwf (k : BitVec 6) (n : BitVec 3) :
    (encode (.xwf k n)).toNat = 0x3000 + 64 * n.toNat + k.toNat := by
  have hfields := toNat_append_eq_add 0b0011000#7 n
  have hword : (encode (.xwf k n)).toNat = (0b0011000#7 ++ n).toNat * 2 ^ 6 + k.toNat := toNat_append_eq_add _ k
  simp only [BitVec.toNat_ofNat] at hfields
  omega

theorem toNat_encode_xwb (k : BitVec 6) (n : BitVec 3) :
    (encode (.xwb k n)).toNat = 0x4000 + 64 * n.toNat + k.toNat := by
  have hfields := toNat_append_eq_add 0b0100000#7 n
  have hword : (encode (.xwb k n)).toNat = (0b0100000#7 ++ n).toNat * 2 ^ 6 + k.toNat := toNat_append_eq_add _ k
  simp only [BitVec.toNat_ofNat] at hfields
  omega

/-- A field of a command word, as a number. -/
theorem toNat_extractLsb'_eq_div_mod (w : CmdWord) (lo count : Nat) :
    (w.extractLsb' lo count).toNat = w.toNat / 2 ^ lo % 2 ^ count := by
  rw [BitVec.extractLsb'_toNat, Nat.shiftRight_eq_div_pow]

theorem extractLsb'_eq_zero_iff (w : CmdWord) (lo count : Nat) :
    w.extractLsb' lo count = 0#count ↔ w.toNat / 2 ^ lo % 2 ^ count = 0 := by
  rw [← BitVec.toNat_inj, toNat_extractLsb'_eq_div_mod, BitVec.toNat_ofNat, Nat.zero_mod]

theorem bool_eq_of_toNat_eq : ∀ {v w : Bool}, v.toNat = w.toNat → v = w := by decide

theorem toNat_getLsbD_nine (w : CmdWord) : (w.getLsbD 9).toNat = w.toNat / 512 % 2 := by
  rw [BitVec.getLsbD, Nat.toNat_testBit]

/-! ### The four formats (30_encoding.md R51) -/

theorem ite_ok_error_eq_ok {ok : Prop} [Decidable ok] {i j : Instr} {e : DecodeError} :
    (if ok then Except.ok i else .error e) = .ok j ↔ ok ∧ i = j := by
  split <;> simp [*]

theorem decodeN_eq_ok {i j : Instr} {w : CmdWord} : decodeN i w = .ok j ↔ w.toNat % 4096 = 0 ∧ i = j :=
  ite_ok_error_eq_ok.trans (and_congr_left' (by simpa using extractLsb'_eq_zero_iff w 0 12))

theorem decodeG_eq_ok {mk : BitVec 9 → Instr} {j : Instr} {w : CmdWord} :
    decodeG mk w = .ok j ↔ w.toNat / 512 % 8 = 0 ∧ mk (w.extractLsb' 0 9) = j :=
  ite_ok_error_eq_ok.trans (and_congr_left' (extractLsb'_eq_zero_iff w 9 3))

theorem decodeP_eq_ok {mk : BitVec 9 → Bool → Instr} {j : Instr} {w : CmdWord} :
    decodeP mk w = .ok j ↔ w.toNat / 1024 % 4 = 0 ∧ mk (w.extractLsb' 0 9) (w.getLsbD 9) = j :=
  ite_ok_error_eq_ok.trans (and_congr_left' (extractLsb'_eq_zero_iff w 10 2))

theorem decodeX_eq_ok {mk : BitVec 6 → BitVec 3 → Instr} {j : Instr} {w : CmdWord} :
    decodeX mk w = .ok j ↔ w.toNat / 512 % 8 = 0 ∧ mk (w.extractLsb' 0 6) (w.extractLsb' 6 3) = j :=
  ite_ok_error_eq_ok.trans (and_congr_left' (extractLsb'_eq_zero_iff w 9 3))

theorem toNat_opcode (w : CmdWord) : (w.extractLsb' 12 4).toNat = w.toNat / 4096 := by
  have hw := w.isLt
  rw [toNat_extractLsb'_eq_div_mod]
  omega

/-! ### The decoder and the encoder are inverse -/

theorem decode_encode (i : Instr) : decode (encode i) = .ok i := by
  cases i with
  | getbit off =>
    have hw := toNat_encode_getbit off
    rw [decode, toNat_opcode, show (encode (.getbit off)).toNat / 4096 = 1 by omega]
    refine decodeG_eq_ok.mpr ⟨by omega, congrArg Instr.getbit (BitVec.eq_of_toNat_eq ?_)⟩
    rw [toNat_extractLsb'_eq_div_mod]
    omega
  | putbit off v =>
    have hw := toNat_encode_putbit off v
    have hv := v.toNat_lt
    rw [decode, toNat_opcode, show (encode (.putbit off v)).toNat / 4096 = 2 by omega]
    refine decodeP_eq_ok.mpr ⟨by omega, congrArg₂ Instr.putbit (BitVec.eq_of_toNat_eq ?_) (bool_eq_of_toNat_eq ?_)⟩
    · rw [toNat_extractLsb'_eq_div_mod]
      omega
    · rw [toNat_getLsbD_nine]
      omega
  | xwf k n =>
    have hw := toNat_encode_xwf k n
    rw [decode, toNat_opcode, show (encode (.xwf k n)).toNat / 4096 = 3 by omega]
    refine decodeX_eq_ok.mpr ⟨by omega, congrArg₂ Instr.xwf (BitVec.eq_of_toNat_eq ?_) (BitVec.eq_of_toNat_eq ?_)⟩ <;>
      rw [toNat_extractLsb'_eq_div_mod] <;> omega
  | xwb k n =>
    have hw := toNat_encode_xwb k n
    rw [decode, toNat_opcode, show (encode (.xwb k n)).toNat / 4096 = 4 by omega]
    refine decodeX_eq_ok.mpr ⟨by omega, congrArg₂ Instr.xwb (BitVec.eq_of_toNat_eq ?_) (BitVec.eq_of_toNat_eq ?_)⟩ <;>
      rw [toNat_extractLsb'_eq_div_mod] <;> omega
  | _ => rfl

theorem encode_of_decode {w : CmdWord} {i : Instr} (h : decode w = .ok i) : encode i = w := by
  have hw := w.isLt
  apply BitVec.eq_of_toNat_eq
  unfold decode at h
  rw [toNat_opcode] at h
  split at h
  case h_1 hop =>
    obtain ⟨hz, rfl⟩ := decodeG_eq_ok.mp h
    rw [toNat_encode_getbit, toNat_extractLsb'_eq_div_mod]
    omega
  case h_2 hop =>
    obtain ⟨hz, rfl⟩ := decodeP_eq_ok.mp h
    rw [toNat_encode_putbit, toNat_extractLsb'_eq_div_mod, toNat_getLsbD_nine]
    omega
  case h_3 hop =>
    obtain ⟨hz, rfl⟩ := decodeX_eq_ok.mp h
    rw [toNat_encode_xwf, toNat_extractLsb'_eq_div_mod, toNat_extractLsb'_eq_div_mod]
    omega
  case h_4 hop =>
    obtain ⟨hz, rfl⟩ := decodeX_eq_ok.mp h
    rw [toNat_encode_xwb, toNat_extractLsb'_eq_div_mod, toNat_extractLsb'_eq_div_mod]
    omega
  case h_12 => cases h
  all_goals
    obtain ⟨hz, rfl⟩ := decodeN_eq_ok.mp h
    simp only [encode, BitVec.toNat_ofNat]
    omega

end Sys2Proof
end

section
/-!
SUPPORT. What a command, a word issued and a step can do, said once as inversion lemmas; what each completed command leaves
unchanged; and what the host reads.
-/

namespace Sys2Proof.Machine

/-! ### What a command can do -/

theorem faultsOn_of_raise {w : CmdWord} {c : Cause} {s t : State} (hc : faultAllowed w c = true)
    (h : raise c w s = .next t) : FaultsOn w s t :=
  ⟨c, hc, raise_eq_next.mp h⟩

/-- A command that reads the state faults with STATE_INVALID, or completes on the state's value. -/
theorem onState_faults_or_completes {i : Instr} {s t : State} {f : St → State}
    (hc : faultAllowed (encode i) .stateInvalid = true) (hf : ∀ b, s.st = some b → Completes s i (f b))
    (h : onState i s f = .next t) : FaultsOn (encode i) s t ∨ Completes s i t := by
  obtain ⟨-, rfl⟩ | ⟨b, hb, rfl⟩ := onState_next_cases h
  · exact .inl ⟨_, hc, rfl⟩
  · exact .inr (hf b hb)

/-- A command with a legal range: out of it the fault of the range, in it the command runs on the state. -/
theorem guarded_onState_faults_or_completes {i : Instr} {s t : State} {legal : Prop} [Decidable legal] {c : Cause}
    {f : legal → St → State} (hin : legal → faultAllowed (encode i) .stateInvalid = true)
    (hout : ¬ legal → faultAllowed (encode i) c = true) (hf : ∀ hl b, s.st = some b → Completes s i (f hl b))
    (h : (if hl : legal then onState i s (f hl) else raise c (encode i) s) = .next t) :
    FaultsOn (encode i) s t ∨ Completes s i t := by
  split at h
  next hl => exact onState_faults_or_completes (hin hl) (hf hl) h
  next hl => exact .inl (faultsOn_of_raise (hout hl) h)

/-- A command that builds its own state: SIZE, or it completes. -/
theorem sized_faults_or_completes {i : Instr} {s t u : State} {bad : Bool}
    (hc : faultAllowed (encode i) .size = true) (hu : bad = false → Completes s i u)
    (h : (if bad then raise .size (encode i) s else .next u) = .next t) :
    FaultsOn (encode i) s t ∨ Completes s i t := by
  cases bad with
  | true => exact .inl (faultsOn_of_raise hc h)
  | false => cases h; exact .inr (hu rfl)

theorem xwf_wf_iff (k : BitVec 6) (n : BitVec 3) : (Instr.xwf k n).wf = true ↔ XwRange 36 k.toNat n.toNat := by
  have hn := n.isLt
  simp only [Instr.wf, Bool.and_eq_true, decide_eq_true_eq]
  omega

theorem xwb_wf_iff (k : BitVec 6) (n : BitVec 3) : (Instr.xwb k n).wf = true ↔ XwRange 36 k.toNat n.toNat :=
  xwf_wf_iff k n

/-- Every command: nothing on a faulted core (60_exceptions.md R145), else a fault its word can raise, or its
completion. -/
theorem exec_next_cases {i : Instr} {s t : State} (h : exec i s = .next t) :
    (s.flt = true ∧ t = s) ∨ (s.flt = false ∧ (FaultsOn (encode i) s t ∨ Completes s i t)) := by
  have unfaulted : ∀ {run : Result}, unlessFaulted s run = .next t →
      (run = .next t → FaultsOn (encode i) s t ∨ Completes s i t) →
      (s.flt = true ∧ t = s) ∨ (s.flt = false ∧ (FaultsOn (encode i) s t ∨ Completes s i t)) :=
    fun h hrun => (unlessFaulted_next_cases h).imp_right (And.imp_right hrun)
  have hdec := decode_encode i
  cases i with
  | getbit off =>
    exact unfaulted h (guarded_onState_faults_or_completes (fun hl => by simp [faultAllowed, hdec, hl])
      (fun hl => by simp [faultAllowed, hdec, hl]) fun hl _ hb => .getbit hb hl)
  | putbit off v =>
    exact unfaulted h (guarded_onState_faults_or_completes (fun hl => by simp [faultAllowed, hdec, hl])
      (fun hl => by simp [faultAllowed, hdec, hl]) fun hl _ hb => .putbit hb hl)
  | xwf k n =>
    exact unfaulted h (guarded_onState_faults_or_completes
      (fun hl => by simp [faultAllowed, hdec, (xwf_wf_iff k n).mpr hl])
      (fun hl => by simp [faultAllowed, hdec, mt (xwf_wf_iff k n).mp hl]) fun hl _ hb => .xwf hb hl)
  | xwb k n =>
    exact unfaulted h (guarded_onState_faults_or_completes
      (fun hl => by simp [faultAllowed, hdec, (xwb_wf_iff k n).mpr hl])
      (fun hl => by simp [faultAllowed, hdec, mt (xwb_wf_iff k n).mp hl]) fun hl _ hb => .xwb hb hl)
  | setup => exact unfaulted h (sized_faults_or_completes (by simp [faultAllowed, hdec]) .setup)
  | rot1 => exact unfaulted h (onState_faults_or_completes (by simp [faultAllowed, hdec]) fun _ hb => .rot1 hb)
  | clock => exact unfaulted h (onState_faults_or_completes (by simp [faultAllowed, hdec]) fun _ hb => .clock hb)
  | ksbyte => exact unfaulted h (onState_faults_or_completes (by simp [faultAllowed, hdec]) fun _ hb => .ksbyte hb)
  | warmup => exact unfaulted h (onState_faults_or_completes (by simp [faultAllowed, hdec]) fun _ hb => .warmup hb)
  | cipherIp => exact unfaulted h (sized_faults_or_completes (by simp [faultAllowed, hdec]) .cipherIp)
  | cipherCp => exact unfaulted h (sized_faults_or_completes (by simp [faultAllowed, hdec]) .cipherCp)

/-- A word issued: nothing on a faulted core, else a fault it can raise, or the completion of the command it decodes to. -/
theorem issueWord_next_cases {w : CmdWord} {s t : State} (h : issueWord w s = .next t) :
    (s.flt = true ∧ t = s) ∨ (s.flt = false ∧ (FaultsOn w s t ∨ ∃ i, decode w = .ok i ∧ Completes s i t)) := by
  cases hd : decode w with
  | error e =>
    rw [issueWord_error hd] at h
    exact (unlessFaulted_next_cases h).imp_right
      (And.imp_right fun h => .inl (faultsOn_of_raise (by simp [faultAllowed, hd]) h))
  | ok i =>
    rw [issueWord_ok hd] at h
    rw [← encode_of_decode hd]
    exact (exec_next_cases h).imp_right (And.imp_right (Or.imp_right fun hc => ⟨i, rfl, hc⟩))

/-! ### What a step can do -/

theorem SameCore.sv_eq {s t : State} (h : SameCore s t) : t.sv = s.sv := by rw [h]; rfl

theorem SameCore.res_eq {s t : State} (h : SameCore s t) : t.res = s.res := by rw [h]

theorem step_next_cases {s t : State} (h : step s = .next t) :
    (s.host = [] ∧ t = s) ∨ ∃ a rest, s.host = a :: rest ∧ hostAct a (s.setHost rest) = .next t := by
  cases hs : s.host with
  | nil =>
    rw [step_idle hs] at h
    cases h
    exact .inl ⟨rfl, rfl⟩
  | cons a rest =>
    rw [step_action hs] at h
    exact .inr ⟨a, rest, rfl, h⟩

/-- What a step can do to the core's own state: a word is issued, a reset discards it, or it stays. -/
theorem step_core_cases {s t : State} (h : step s = .next t) :
    (∃ w rest, s.host = .issue w :: rest ∧ issueWord w (s.setHost rest) = .next t) ∨
    ((∃ rest, s.host = .reset :: rest ∨ ∃ w, s.host = .abandon w :: rest) ∧ t.sv = false) ∨
    SameCore s t := by
  obtain ⟨-, rfl⟩ | ⟨a, rest, hs, ha⟩ := step_next_cases h
  · exact .inr (.inr rfl)
  obtain ⟨w, rfl, hw⟩ | ⟨rfl, rfl⟩ | ⟨w, rfl, rfl⟩ | ⟨buf, bytes, rfl, -, rfl⟩ | ⟨buf, idx, v, rfl, -, rfl⟩ | ⟨n, rfl, rfl⟩ |
    ⟨n, rfl, rfl⟩ | ⟨n, rfl, rfl⟩ := hostAct_next_cases ha
  · exact .inl ⟨w, rest, hs, hw⟩
  · exact .inr (.inl ⟨⟨rest, .inl hs⟩, rfl⟩)
  · refine .inr (.inl ⟨⟨rest, .inr ⟨w, hs⟩⟩, ?_⟩)
    obtain hw | ⟨-, -, -, hw⟩ := abandonWord_cases w (s.setHost rest) <;> rw [hw] <;> rfl
  · exact .inr (.inr (by cases buf <;> rfl))
  · exact .inr (.inr (by cases buf <;> rfl))
  · exact .inr (.inr rfl)
  · exact .inr (.inr rfl)
  · exact .inr (.inr rfl)

/-! ### What a completed command leaves unchanged -/

/-- SETUP gives ST a value, the CIPHER commands discard it, and every other command completes only with one and keeps one
(10_state.md R11, R12). -/
theorem Completes.sv_cases {i : Instr} {s t : State} (h : Completes s i t) :
    (i = .setup ∧ t.sv = true) ∨ ((i = .cipherIp ∨ i = .cipherCp) ∧ t.sv = false) ∨ t.sv = s.sv := by
  have valid : ∀ {b}, s.st = some b → true = s.sv := fun hb => by simp [State.sv, hb]
  cases h with
  | getbit => exact .inr (.inr rfl)
  | setup => exact .inl ⟨rfl, rfl⟩
  | cipherIp => exact .inr (.inl ⟨.inl rfl, rfl⟩)
  | cipherCp => exact .inr (.inl ⟨.inr rfl, rfl⟩)
  | putbit hb | xwf hb | xwb hb | rot1 hb | clock hb | ksbyte hb | warmup hb => exact .inr (.inr (valid hb))

theorem issueWord_sv_cases {w : CmdWord} {s t : State} (h : issueWord w s = .next t) :
    (w = 0x5000#16 ∧ t.sv = true) ∨ ((w = 0xA000#16 ∨ w = 0xB000#16) ∧ t.sv = false) ∨ t.sv = s.sv := by
  obtain ⟨-, rfl⟩ | ⟨-, ⟨c, -, rfl⟩ | ⟨i, hd, hi⟩⟩ := issueWord_next_cases h
  · exact .inr (.inr rfl)
  · exact .inr (.inr rfl)
  · rw [← encode_of_decode hd]
    exact hi.sv_cases.imp (And.imp_left (congrArg encode))
      (Or.imp_left (And.imp_left (Or.imp (congrArg encode) (congrArg encode))))

/-- What no completed command writes: straps, descriptors, KEY, IV, the host's pending actions and the fault registers. -/
theorem Completes.frame {i : Instr} {s t : State} (h : Completes s i t) :
    (t.cfg = s.cfg ∧ t.klen = s.klen ∧ t.vlen = s.vlen ∧ t.len = s.len ∧ t.host = s.host ∧ t.draws = s.draws) ∧
    t.keyBuf = s.keyBuf ∧ t.ivBuf = s.ivBuf ∧ t.cause = s.cause ∧ t.fcmd = s.fcmd := by
  cases h <;> simp

theorem Memory.read_writeBytes_of_le {m : Memory} (h : m.wf) {vs : List Byte} {a : Nat} (ha : vs.length ≤ a) :
    (m.writeBytes 0 vs).read a = m.read a := by
  rw [Memory.read_writeBytes h, dif_neg (by omega)]

theorem Completes.read_inBuf_eq {i : Instr} {s t : State} (h : Completes s i t) (hwf : s.inBuf.wf) {a : Nat}
    (ha : i ≠ .cipherIp ∨ s.len.toNat ≤ a) : t.inBuf.read a = s.inBuf.read a := by
  cases h with
  | cipherIp =>
    have hle := ha.resolve_left (· rfl)
    exact Memory.read_writeBytes_of_le hwf (by rwa [length_cipherBytes])
  | _ => rfl

theorem Completes.read_outBuf_eq {i : Instr} {s t : State} (h : Completes s i t) (hwf : s.outBuf.wf) {a : Nat}
    (ha : i ≠ .cipherCp ∨ s.len.toNat ≤ a) : t.outBuf.read a = s.outBuf.read a := by
  cases h with
  | cipherCp =>
    have hle := ha.resolve_left (· rfl)
    exact Memory.read_writeBytes_of_le hwf (by rwa [length_cipherBytes])
  | _ => rfl

theorem Completes.olen_eq {i : Instr} {s t : State} (h : Completes s i t) (hi : i ≠ .cipherCp) : t.olen = s.olen := by
  cases h with
  | cipherCp => exact absurd rfl hi
  | _ => rfl

theorem Completes.st_eq_of_getbit {off : BitVec 9} {s t : State} (h : Completes s (.getbit off) t) : t.st = s.st := by
  cases h
  rfl

theorem Completes.res_eq {i : Instr} {s t : State} (h : Completes s i t) (hg : ∀ off, i ≠ .getbit off)
    (hc : i ≠ .clock) (hk : i ≠ .ksbyte) : t.res = s.res := by
  cases h with
  | getbit => exact absurd rfl (hg _)
  | clock => exact absurd rfl hc
  | ksbyte => exact absurd rfl hk
  | _ => rfl

/-! ### The commands that build their own state -/

theorem keyIvSizeBad_of_ok {s : State} (h : s.keyIvSizeOk) : s.keyIvSizeBad = false := by
  obtain ⟨hk, hv⟩ := h
  exact keyIvSizeBad_eq_false.mpr ⟨by rw [hk]; rfl, by rw [hv]; rfl⟩

theorem cipherSizeBad_of_ok {s : State} (h : s.cipherSizeOk) : s.cipherSizeBad = false :=
  cipherSizeBad_eq_false.mpr ⟨keyIvSizeBad_eq_false.mp (keyIvSizeBad_of_ok h.1), h.2⟩

theorem exec_setup_of_ok {s : State} (hf : s.flt = false) (h : s.keyIvSizeOk) :
    exec .setup s = .next (s.setSt (setup s.keyBytes s.ivBytes)) := by
  rw [exec, execSetup, unlessFaulted_of_not_flt hf, keyIvSizeBad_of_ok h]
  rfl

theorem exec_cipherIp_of_ok {s : State} (hf : s.flt = false) (h : s.cipherSizeOk) :
    exec .cipherIp s = .next (s.setIn (s.inBuf.writeBytes 0 s.cipherBytes)).discardSt := by
  rw [exec, execCipherIp, unlessFaulted_of_not_flt hf, cipherSizeBad_of_ok h]
  rfl

theorem exec_cipherCp_of_ok {s : State} (hf : s.flt = false) (h : s.cipherSizeOk) :
    exec .cipherCp s = .next (s.setOut (s.outBuf.writeBytes 0 s.cipherBytes) s.len).discardSt := by
  rw [exec, execCipherCp, unlessFaulted_of_not_flt hf, cipherSizeBad_of_ok h]
  rfl

/-! ### What the host reads -/

theorem statusWord_getLsbD_zero (s : State) : s.statusWord.getLsbD 0 = s.sv := by
  have low : ∀ flt sv : Bool, (BitVec.ofBool flt ++ BitVec.ofBool sv).getLsbD 0 = sv := by decide
  exact low s.flt s.sv

theorem statusWord_getLsbD_one (s : State) : s.statusWord.getLsbD 1 = s.flt := by
  have high : ∀ flt sv : Bool, (BitVec.ofBool flt ++ BitVec.ofBool sv).getLsbD 1 = flt := by decide
  exact high s.flt s.sv

theorem Cause.code_le_five (c : Cause) : c.code.toNat ≤ 5 := by cases c <;> decide

theorem Cause.code_inj {c d : Cause} : c.code = d.code ↔ c = d := by
  cases c <;> cases d <;> decide

theorem causeCode_eq_iff (s : State) (c : Cause) : s.causeCode = c.code ↔ s.cause = c := Cause.code_inj

theorem readSt_of_not_sv {s : State} (h : s.sv = false) (k : Nat) : s.readSt k = none := by
  have hst : s.st = none := by simpa [State.sv] using h
  simp [State.readSt, hst]

theorem readSt_of_some {s : State} {b : St} (h : s.st = some b) (k : Nat) (hk : k < 36) : s.readSt k = some b[k] := by
  simp [State.readSt, h, hk]

theorem readOut_of_lt {s : State} {idx : Nat} (h : idx < s.olen.toNat) : s.readOut idx = some (s.outBuf.read idx) :=
  if_pos h

theorem readOut_of_le {s : State} {idx : Nat} (h : s.olen.toNat ≤ idx) : s.readOut idx = none :=
  if_neg (Nat.not_lt.mpr h)

end Sys2Proof.Machine
end

section
/-!
SUPPORT. Every operation keeps the invariant; and the statements of 10_state.md, settled.
-/

namespace Sys2Proof.Machine

/-! ### The invariant, operation by operation -/

theorem toNat_le_65535 (n : BitVec 16) : n.toNat ≤ 65535 := Nat.le_of_lt_succ n.isLt

theorem length_partlyLanded_le (draw idx : Nat) (old new : List Byte) :
    (partlyLanded draw idx old new).length ≤ old.length := by
  induction old generalizing idx new with
  | nil => simp [partlyLanded]
  | cons o old ih =>
    cases new with
    | nil => simp [partlyLanded]
    | cons n new => simpa [partlyLanded] using ih (idx + 1) new

theorem Memory.within_nil (size : Nat) : Memory.within size [] := by simp

theorem inv_reset : State.reset.Inv where
  straps := by decide
  keyWf := Memory.wf_nil
  ivWf := Memory.wf_nil
  inWf := Memory.wf_nil
  outWf := Memory.wf_nil
  keyWithin := Memory.within_nil _
  ivWithin := Memory.within_nil _
  inWithin := Memory.within_nil _
  outWithin := Memory.within_nil _
  olenLe := Nat.zero_le _
  noFault _ := ⟨rfl, rfl⟩
  faulted h := absurd h (by decide)

theorem inv_setHost {s : State} (h : s.Inv) (l : List HostAction) : (s.setHost l).Inv := { h with }

theorem inv_setSt {s : State} (h : s.Inv) (b : St) : (s.setSt b).Inv := { h with }

theorem inv_discardSt {s : State} (h : s.Inv) : s.discardSt.Inv := { h with }

theorem inv_setRes {s : State} (h : s.Inv) (v : Byte) : (s.setRes v).Inv := { h with }

theorem inv_recordFault {s : State} (h : s.Inv) {w : CmdWord} {c : Cause} (hc : faultAllowed w c = true) :
    (s.recordFault c w).Inv :=
  { h with
    noFault := fun hf => absurd hf (by simp)
    faulted := fun _ => hc }

theorem inv_setIn {s : State} (h : s.Inv) {m : Memory} (hwf : m.wf) (hm : m.within 65535) : (s.setIn m).Inv :=
  { h with
    inWf := hwf
    inWithin := hm }

theorem inv_setOut {s : State} (h : s.Inv) {m : Memory} {n : BitVec 16} (hwf : m.wf) (hm : m.within s.cfg.bufmax)
    (hn : n.toNat ≤ s.cfg.bufmax) : (s.setOut m n).Inv :=
  { h with
    outWf := hwf
    outWithin := hm
    olenLe := hn }

theorem inv_resetCore {s : State} (h : s.Inv) : s.resetCore.Inv :=
  { h with
    outWf := Memory.wf_nil
    outWithin := Memory.within_nil _
    olenLe := Nat.zero_le _
    noFault := fun _ => ⟨rfl, rfl⟩
    faulted := fun hf => absurd hf (by simp) }

theorem inv_setHostBuf {s : State} (h : s.Inv) {buf : HostBuffer} {m : Memory} (hwf : m.wf)
    (hm : m.within buf.maxLen) : (s.setHostBuf buf m).Inv := by
  cases buf with
  | key => exact { h with keyWf := hwf, keyWithin := hm }
  | iv => exact { h with ivWf := hwf, ivWithin := hm }
  | input => exact { h with inWf := hwf, inWithin := hm }

theorem inv_driveLength {s : State} (h : s.Inv) (buf : HostBuffer) (n : Nat) : (s.driveLength buf n).Inv := by
  cases buf <;> exact { h with }

theorem hostBuf_wf {s : State} (h : s.Inv) (buf : HostBuffer) : (s.hostBuf buf).wf := by
  cases buf with
  | key => exact h.keyWf
  | iv => exact h.ivWf
  | input => exact h.inWf

theorem hostBuf_within {s : State} (h : s.Inv) (buf : HostBuffer) : (s.hostBuf buf).within buf.maxLen := by
  cases buf with
  | key => exact h.keyWithin
  | iv => exact h.ivWithin
  | input => exact h.inWithin

theorem inv_of_completes {i : Instr} {s t : State} (h : s.Inv) (hc : Completes s i t) : t.Inv := by
  have hlen := length_cipherBytes s
  cases hc with
  | getbit => exact inv_setRes h _
  | putbit | xwf | xwb | setup | rot1 | warmup => exact inv_setSt h _
  | clock | ksbyte => exact inv_setRes (inv_setSt h _) _
  | cipherIp =>
    have hle := toNat_le_65535 s.len
    exact inv_discardSt (inv_setIn h (Memory.wf_writeBytes h.inWf _ _)
      (Memory.within_writeBytes h.inWithin _ _ (by omega)))
  | cipherCp hok =>
    obtain ⟨-, -, hle⟩ := cipherSizeBad_eq_false.mp hok
    exact inv_discardSt (inv_setOut h (Memory.wf_writeBytes h.outWf _ _)
      (Memory.within_writeBytes h.outWithin _ _ (by omega)) hle)

theorem inv_of_issueWord {w : CmdWord} {s t : State} (h : s.Inv) (hw : issueWord w s = .next t) : t.Inv := by
  obtain ⟨-, rfl⟩ | ⟨-, ⟨c, hc, rfl⟩ | ⟨i, -, hi⟩⟩ := issueWord_next_cases hw
  · exact h
  · exact inv_recordFault h hc
  · exact inv_of_completes h hi

theorem abandonedIn_within {s : State} (h : s.inBuf.within 65535) : s.abandonedIn.within 65535 := by
  have hlanded := length_partlyLanded_le s.draws 0 s.inBytes s.cipherBytes
  have hlen : s.inBytes.length = s.len.toNat := Memory.length_readBytes _ _ _
  have hle := toNat_le_65535 s.len
  exact Memory.within_writeBytes h _ _ (by omega)

theorem inv_abandonWord {s : State} (h : s.Inv) (w : CmdWord) : (abandonWord w s).Inv := by
  obtain hw | ⟨-, -, -, hw⟩ := abandonWord_cases w s <;> rw [hw]
  · exact inv_resetCore h
  · exact { inv_resetCore h with
      inWf := Memory.wf_writeBytes h.inWf _ _
      inWithin := abandonedIn_within h.inWithin }

theorem inv_of_hostAct {a : HostAction} {s t : State} (h : s.Inv) (ha : hostAct a s = .next t) : t.Inv := by
  obtain ⟨w, -, hw⟩ | ⟨-, rfl⟩ | ⟨w, -, rfl⟩ | ⟨buf, bytes, -, hle, rfl⟩ | ⟨buf, idx, v, -, hlt, rfl⟩ | ⟨n, -, rfl⟩ |
    ⟨n, -, rfl⟩ | ⟨n, -, rfl⟩ := hostAct_next_cases ha
  · exact inv_of_issueWord h hw
  · exact inv_resetCore h
  · exact inv_abandonWord h w
  · exact inv_driveLength (inv_setHostBuf h (Memory.wf_writeBytes (hostBuf_wf h buf) _ _)
      (Memory.within_writeBytes (hostBuf_within h buf) _ _ (by omega))) _ _
  · exact inv_setHostBuf h (Memory.wf_write (hostBuf_wf h buf) _ _) (Memory.within_write (hostBuf_within h buf) hlt _)
  · exact { h with }
  · exact { h with }
  · exact { h with }

/-! ### The obligations -/

/-- Settles O51, with the straps and the empty buffers of `State.reset` (logs 4, 6). -/
theorem invariantHoldsAtReset : Obligations.InvariantHoldsAtReset := inv_reset

/-- Settles O52: every host action keeps the invariant, and taking it from the pending ones does too. -/
theorem stepKeepsTheInvariant : Obligations.StepKeepsTheInvariant := by
  intro s t hinv hstep
  obtain ⟨-, rfl⟩ | ⟨a, rest, -, ha⟩ := step_next_cases hstep
  · exact hinv
  · exact inv_of_hostAct (inv_setHost hinv rest) ha

/-- Settles O53, from what a step can do to the core and what a word issued can do to SV. -/
theorem stateIsBuiltAndDiscardedOnlyByRule : Obligations.StateIsBuiltAndDiscardedOnlyByRule := by
  intro s t hstep
  obtain ⟨w, rest, hs, hw⟩ | ⟨⟨rest, hreset⟩, hsv⟩ | hsame := step_core_cases hstep
  · obtain ⟨rfl, hsv⟩ | ⟨rfl | rfl, hsv⟩ | hsv := issueWord_sv_cases hw
    · exact ⟨fun _ _ => ⟨rest, hs⟩, by simp [hsv]⟩
    · exact ⟨by simp [hsv], fun _ _ => ⟨rest, .inl hs⟩⟩
    · exact ⟨by simp [hsv], fun _ _ => ⟨rest, .inr (.inl hs)⟩⟩
    · rw [State.sv_setHost] at hsv
      exact ⟨fun hs0 ht1 => by simp [hsv, hs0] at ht1, fun hs1 ht0 => by simp [hsv, hs1] at ht0⟩
  · exact ⟨by simp [hsv], fun _ _ => ⟨rest, .inr (.inr hreset)⟩⟩
  · have hsv := hsame.sv_eq
    exact ⟨fun hs0 ht1 => by simp [hsv, hs0] at ht1, fun hs1 ht0 => by simp [hsv, hs1] at ht0⟩

/-- Settles O54: of the commands that complete, only the three write RES; faults and the other host actions keep it. -/
theorem resultRegisterWriters : Obligations.ResultRegisterWriters := by
  intro s t hstep hres
  obtain ⟨w, rest, hs, hw⟩ | ⟨⟨rest, hreset⟩, -⟩ | hsame := step_core_cases hstep
  · refine ⟨rest, .inr (.inr ⟨w, hs, ?_⟩)⟩
    obtain ⟨-, rfl⟩ | ⟨hflt, ⟨c, -, rfl⟩ | ⟨i, hd, hi⟩⟩ := issueWord_next_cases hw
    · exact absurd rfl hres
    · exact absurd rfl hres
    · refine ⟨hflt, ?_⟩
      rw [hd]
      by_contra hother
      simp only [Except.ok.injEq, not_or, not_exists] at hother
      obtain ⟨hclock, hksbyte, hgetbit⟩ := hother
      exact hres (hi.res_eq hgetbit hclock hksbyte)
  · exact ⟨rest, hreset.imp_right .inl⟩
  · exact absurd hsame.res_eq hres

/-- Settles O56: a fault writes the fault registers only, and each completed command has its own frame. -/
theorem commandsWriteOnlyWhatTheirRulesName : Obligations.CommandsWriteOnlyWhatTheirRulesName := by
  intro i s t hin hout hexec
  obtain ⟨-, rfl⟩ | ⟨hflt, ⟨c, -, rfl⟩ | hc⟩ := exec_next_cases hexec
  · simp
  · simp [hflt]
  · obtain ⟨⟨hcfg, hklen, hvlen, hlen, hhost, hdraws⟩, hkey, hiv, hfault⟩ := hc.frame
    refine ⟨hcfg, hklen, hvlen, hlen, hhost, hdraws, fun a => by rw [hkey], fun a => by rw [hiv],
      fun a => hc.read_inBuf_eq hin, fun a => hc.read_outBuf_eq hout, hc.olen_eq,
      fun hclock hksbyte hgetbit => hc.res_eq hgetbit hclock hksbyte, ?_, fun _ => hfault⟩
    rintro ⟨off, rfl⟩
    exact hc.st_eq_of_getbit

/-- Settles O42: with legal lengths, what each command makes names no byte of the old register. -/
theorem buildersIgnoreTheOldState : Obligations.BuildersIgnoreTheOldState := by
  intro s x hflt
  refine ⟨fun hk => ?_, fun hc => ⟨?_, ?_⟩⟩
  · rw [exec_setup_of_ok hflt hk]
    exact exec_setup_of_ok hflt hk
  · rw [exec_cipherIp_of_ok hflt hc]
    exact exec_cipherIp_of_ok hflt hc
  · rw [exec_cipherCp_of_ok hflt hc]
    exact exec_cipherCp_of_ok hflt hc

/-- Settles O49: the reset action is `resetCore`, which empties OUT. -/
theorem resetLeavesTheSpecValues : Obligations.ResetLeavesTheSpecValues := by
  refine ⟨⟨rfl, rfl, rfl, rfl, rfl, rfl, rfl, fun idx => readOut_of_le (Nat.zero_le idx)⟩, fun s rest hs => ⟨[], ?_⟩⟩
  rw [step_action hs]
  rfl

/-- Settles O58: the causes have different codes, and SV and OLEN decide whether a read has a value. -/
theorem hostReadsOnlyWhatHoldsAValue : Obligations.HostReadsOnlyWhatHoldsAValue := by
  intro s
  exact ⟨statusWord_getLsbD_zero s, statusWord_getLsbD_one s, s.cause.code_le_five,
    causeCode_eq_iff s .none, causeCode_eq_iff s .illegalCmd, causeCode_eq_iff s .size, causeCode_eq_iff s .offset,
    causeCode_eq_iff s .xwRange, causeCode_eq_iff s .stateInvalid,
    readSt_of_not_sv, fun _ => readSt_of_some, fun _ => readOut_of_lt, fun _ => readOut_of_le⟩

end Sys2Proof.Machine
end

section
/-!
SUPPORT. What the host's writes to its own buffers do, said once for all three buffers; what leaves the readable part of OUT as it
is; and the statements of 20_memory.md, settled.
-/

namespace Sys2Proof.Machine

/-! ### What the host can read of OUT -/

/-- The converse of `cipherSizeBad_of_ok`. -/
theorem cipherSizeOk_of_not_bad {s : State} (h : s.cipherSizeBad = false) : s.cipherSizeOk := by
  obtain ⟨⟨hk, hv⟩, hlen⟩ := cipherSizeBad_eq_false.mp h
  exact ⟨⟨BitVec.eq_of_toNat_eq hk, BitVec.eq_of_toNat_eq hv⟩, hlen⟩

theorem Completes.cipherSizeOk_of_cipherCp {s t : State} (h : Completes s .cipherCp t) : s.cipherSizeOk := by
  cases h with
  | cipherCp hok => exact cipherSizeOk_of_not_bad hok

theorem Completes.readOut_eq {i : Instr} {s t : State} (h : Completes s i t) (hi : i ≠ .cipherCp) (idx : Nat) :
    t.readOut idx = s.readOut idx := by
  cases h with
  | cipherCp => exact absurd rfl hi
  | _ => rfl

theorem SameCore.readOut_eq {s t : State} (h : SameCore s t) (idx : Nat) : t.readOut idx = s.readOut idx := by
  rw [h]
  rfl

/-- A word issued keeps what can be read of OUT, unless it is a CIPHER.CP that completes (20_memory.md R45). -/
theorem issueWord_readOut_cases {w : CmdWord} {s t : State} (h : issueWord w s = .next t) :
    (∀ idx, t.readOut idx = s.readOut idx) ∨ (w = 0xB000#16 ∧ s.flt = false ∧ s.cipherSizeOk) := by
  obtain ⟨-, rfl⟩ | ⟨hflt, ⟨c, -, rfl⟩ | ⟨i, hd, hi⟩⟩ := issueWord_next_cases h
  · exact .inl fun _ => rfl
  · exact .inl fun _ => rfl
  · by_cases hcp : i = .cipherCp
    · subst hcp
      exact .inr ⟨(encode_of_decode hd).symm, hflt, hi.cipherSizeOk_of_cipherCp⟩
    · exact .inl (hi.readOut_eq hcp)

/-! ### The host's writes to its own buffers -/

theorem HostBuffer.maxLen_eq (buf : HostBuffer) : buf.maxLen = if buf = .input then 65535 else 255 := by
  cases buf <;> rfl

@[simp] theorem State.hostBuf_setHost (s : State) (l : List HostAction) (buf : HostBuffer) :
    (s.setHost l).hostBuf buf = s.hostBuf buf := by
  cases buf <;> rfl

section
variable {s : State} {rest : List HostAction} {buf : HostBuffer} {bytes : List Byte} {idx : Nat} {v : Byte}

theorem step_fill (hs : s.host = .fill buf bytes :: rest) (hle : bytes.length ≤ buf.maxLen) :
    step s = .next
      (((s.setHost rest).setHostBuf buf ((s.hostBuf buf).writeBytes 0 bytes)).driveLength buf bytes.length) := by
  rw [step_action hs, hostAct, fillBuffer, if_pos hle, State.hostBuf_setHost]

theorem step_fill_outside (hs : s.host = .fill buf bytes :: rest) (hlt : buf.maxLen < bytes.length) :
    step s = .fault (.hostOutsideBuffer buf) := by
  rw [step_action hs, hostAct, fillBuffer, if_neg (Nat.not_le.mpr hlt)]

theorem step_poke (hs : s.host = .poke buf idx v :: rest) (hlt : idx < buf.maxLen) :
    step s = .next ((s.setHost rest).setHostBuf buf ((s.hostBuf buf).write idx v)) := by
  rw [step_action hs, hostAct, pokeBuffer, if_pos hlt, State.hostBuf_setHost]

theorem step_poke_outside (hs : s.host = .poke buf idx v :: rest) (hle : buf.maxLen ≤ idx) :
    step s = .fault (.hostOutsideBuffer buf) := by
  rw [step_action hs, hostAct, pokeBuffer, if_neg (Nat.not_lt.mpr hle)]

end

theorem bytesOf_writeBytes {m : Memory} (h : m.wf) (vs : List Byte) : BytesOf (m.writeBytes 0 vs) vs.length vs := by
  refine ⟨rfl, fun i hi => ?_⟩
  rw [Memory.read_writeBytes h, dif_pos ⟨Nat.zero_le i, by omega⟩]
  rfl

/-! ### The obligations -/

/-- Settles O55: a completing CIPHER.CP is the only word that rewrites OUT or OLEN, and the host's other actions do not reach
them. -/
theorem outputStaysValid : Obligations.OutputStaysValid := by
  intro s t hstep
  obtain ⟨w, rest, hs, hw⟩ | ⟨⟨rest, hreset⟩, -⟩ | hsame := step_core_cases hstep
  · obtain hkept | ⟨rfl, hflt, hok⟩ := issueWord_readOut_cases hw
    · exact .inl hkept
    · exact .inr ⟨rest, .inl ⟨hs, hflt, hok⟩⟩
  · exact .inr ⟨rest, .inr hreset⟩
  · exact .inl hsame.readOut_eq

/-- Settles O57: the bytes are a run written from index 0, and the descriptor's range is the bound (log 12). -/
theorem hostFillsItsBuffers : Obligations.HostFillsItsBuffers := by
  intro s rest bytes hinv
  refine ⟨fun hs hle => ?_, fun hs hle => ?_, fun hs hle => ?_, fun buf hs hlt => ?_⟩
  · exact ⟨_, step_fill hs hle, bytesOf_writeBytes hinv.keyWf bytes, fun _ => Memory.read_writeBytes_of_le hinv.keyWf⟩
  · exact ⟨_, step_fill hs hle, bytesOf_writeBytes hinv.ivWf bytes, fun _ => Memory.read_writeBytes_of_le hinv.ivWf⟩
  · exact ⟨_, step_fill hs hle, bytesOf_writeBytes hinv.inWf bytes, fun _ => Memory.read_writeBytes_of_le hinv.inWf⟩
  · exact step_fill_outside hs (buf.maxLen_eq ▸ hlt)

/-- Settles O59: a byte reads as it was written and every other as before; each descriptor is a field of its own. -/
theorem hostWritesOneByteOrOneDescriptor : Obligations.HostWritesOneByteOrOneDescriptor := by
  intro s rest hinv
  refine ⟨fun idx v hs hlt => ?_, fun idx v hs hlt => ?_, fun idx v hs hlt => ?_, fun buf idx v hs hle => ?_,
    fun n => step_action, fun n => step_action, fun n => step_action⟩
  · exact ⟨_, step_poke hs hlt, Memory.read_write hinv.keyWf idx v⟩
  · exact ⟨_, step_poke hs hlt, Memory.read_write hinv.ivWf idx v⟩
  · exact ⟨_, step_poke hs hlt, Memory.read_write hinv.inWf idx v⟩
  · exact step_poke_outside hs (buf.maxLen_eq ▸ hle)

end Sys2Proof.Machine
end

section
/-!
SUPPORT. The opcode map held against the decoder: what a row's match and mask say of the number of a word (30_encoding.md R53).
-/

namespace Sys2Proof

/-! ### What decodes -/

theorem decode_eq_ok_iff {w : CmdWord} {i : Instr} : decode w = .ok i ↔ encode i = w :=
  ⟨encode_of_decode, fun h => h ▸ decode_encode i⟩

theorem decode_error_of_not_encode {w : CmdWord} (h : ∀ i, encode i ≠ w) : ∃ e, decode w = .error e := by
  cases hd : decode w with
  | error e => exact ⟨e, rfl⟩
  | ok i => exact absurd (encode_of_decode hd) (h i)

/-! ### The rows of the opcode map (30_encoding.md R53) -/

theorem encode_isMatch_row (i : Instr) : i.row.isMatch (encode i) := by
  cases i with
  | getbit off => exact Laws.EncodeMatchesRow.getbit off
  | putbit off v => exact Laws.EncodeMatchesRow.putbit off v
  | xwf k n => exact Laws.EncodeMatchesRow.xwf k n
  | xwb k n => exact Laws.EncodeMatchesRow.xwb k n
  | _ => rfl

theorem row_mem_opcodeMap (i : Instr) : i.row ∈ opcodeMap := by
  cases i <;> simp [opcodeMap, Instr.row]

theorem isMatch_row_of_decode {w : CmdWord} {i : Instr} (h : decode w = .ok i) : i.row.isMatch w :=
  encode_of_decode h ▸ encode_isMatch_row i

/-- A word under a mask of its bits from `lo` on. -/
theorem toNat_and_highBits (w : CmdWord) (lo : Nat) :
    (w &&& BitVec.allOnes 16 <<< lo).toNat = w.toNat / 2 ^ lo * 2 ^ lo := by
  have hle : w.toNat / 2 ^ lo * 2 ^ lo < 2 ^ 16 := (Nat.div_mul_le_self _ _).trans_lt w.isLt
  rw [← BitVec.shiftLeft_ushiftRight, BitVec.toNat_shiftLeft, BitVec.toNat_ushiftRight, Nat.shiftLeft_eq,
    Nat.shiftRight_eq_div_pow, Nat.mod_eq_of_lt hle]

/-- A word that matches a row whose mask has the bits from 9 on is the row's number with an operand below 512. -/
theorem toNat_div_512_of_and_eq {w m : CmdWord} (h : w &&& 0xFE00#16 = m) : w.toNat / 512 * 512 = m.toNat :=
  h ▸ (toNat_and_highBits w 9).symm

theorem toNat_div_1024_of_and_eq {w m : CmdWord} (h : w &&& 0xFC00#16 = m) : w.toNat / 1024 * 1024 = m.toNat :=
  h ▸ (toNat_and_highBits w 10).symm

theorem decode_getbit_iff_row (w : CmdWord) : (∃ off, decode w = .ok (.getbit off)) ↔ w &&& 0xFE00#16 = 0x1000#16 := by
  refine ⟨fun ⟨off, h⟩ => isMatch_row_of_decode h, fun h => ⟨w.extractLsb' 0 9, decode_eq_ok_iff.mpr ?_⟩⟩
  have hrow : w.toNat / 512 * 512 = 0x1000 := toNat_div_512_of_and_eq h
  apply BitVec.eq_of_toNat_eq
  rw [toNat_encode_getbit, toNat_extractLsb'_eq_div_mod]
  omega

theorem decode_putbit_iff_row (w : CmdWord) :
    (∃ off v, decode w = .ok (.putbit off v)) ↔ w &&& 0xFC00#16 = 0x2000#16 := by
  refine ⟨fun ⟨off, v, h⟩ => isMatch_row_of_decode h,
    fun h => ⟨w.extractLsb' 0 9, w.getLsbD 9, decode_eq_ok_iff.mpr ?_⟩⟩
  have hrow : w.toNat / 1024 * 1024 = 0x2000 := toNat_div_1024_of_and_eq h
  apply BitVec.eq_of_toNat_eq
  rw [toNat_encode_putbit, toNat_extractLsb'_eq_div_mod, toNat_getLsbD_nine]
  omega

theorem decode_xwf_iff_row (w : CmdWord) : (∃ k n, decode w = .ok (.xwf k n)) ↔ w &&& 0xFE00#16 = 0x3000#16 := by
  refine ⟨fun ⟨k, n, h⟩ => isMatch_row_of_decode h,
    fun h => ⟨w.extractLsb' 0 6, w.extractLsb' 6 3, decode_eq_ok_iff.mpr ?_⟩⟩
  have hrow : w.toNat / 512 * 512 = 0x3000 := toNat_div_512_of_and_eq h
  apply BitVec.eq_of_toNat_eq
  rw [toNat_encode_xwf, toNat_extractLsb'_eq_div_mod, toNat_extractLsb'_eq_div_mod]
  omega

theorem decode_xwb_iff_row (w : CmdWord) : (∃ k n, decode w = .ok (.xwb k n)) ↔ w &&& 0xFE00#16 = 0x4000#16 := by
  refine ⟨fun ⟨k, n, h⟩ => isMatch_row_of_decode h,
    fun h => ⟨w.extractLsb' 0 6, w.extractLsb' 6 3, decode_eq_ok_iff.mpr ?_⟩⟩
  have hrow : w.toNat / 512 * 512 = 0x4000 := toNat_div_512_of_and_eq h
  apply BitVec.eq_of_toNat_eq
  rw [toNat_encode_xwb, toNat_extractLsb'_eq_div_mod, toNat_extractLsb'_eq_div_mod]
  omega

/-- A row that masks the whole word stands for one word, its command's. -/
theorem decode_eq_ok_iff_full_row (w : CmdWord) (i : Instr) : decode w = .ok i ↔ w &&& 0xFFFF#16 = encode i := by
  have hfull : w &&& 0xFFFF#16 = w := BitVec.and_allOnes
  rw [hfull, decode_eq_ok_iff, eq_comm]

end Sys2Proof
end

section
/-!
SUPPORT. A command with an operand out of its range, a word issued that is no command; and the statements of 30_encoding.md, settled.
-/

namespace Sys2Proof.Machine

/-! ### Operands out of range (30_encoding.md R52) -/

section
variable {s : State} (hf : s.flt = false)
include hf

theorem exec_getbit_of_le {off : BitVec 9} (h : 288 ≤ off.toNat) :
    exec (.getbit off) s = raise .offset (encode (.getbit off)) s := by
  rw [exec, execGetbit, unlessFaulted_of_not_flt hf, dif_neg (by omega)]

theorem exec_putbit_of_le {off : BitVec 9} (v : Bool) (h : 288 ≤ off.toNat) :
    exec (.putbit off v) s = raise .offset (encode (.putbit off v)) s := by
  rw [exec, execPutbit, unlessFaulted_of_not_flt hf, dif_neg (by omega)]

theorem exec_xwf_of_not_range {k : BitVec 6} {n : BitVec 3} (h : ¬ XwRange 36 k.toNat n.toNat) :
    exec (.xwf k n) s = raise .xwRange (encode (.xwf k n)) s := by
  rw [exec, execXwf, unlessFaulted_of_not_flt hf, dif_neg h]

theorem exec_xwb_of_not_range {k : BitVec 6} {n : BitVec 3} (h : ¬ XwRange 36 k.toNat n.toNat) :
    exec (.xwb k n) s = raise .xwRange (encode (.xwb k n)) s := by
  rw [exec, execXwb, unlessFaulted_of_not_flt hf, dif_neg h]

/-- A command whose operands are not legal faults with the cause of its operands' range. -/
theorem exec_of_not_wf {i : Instr} (h : i.wf = false) :
    ∃ c, (c = .offset ∨ c = .xwRange) ∧ exec i s = raise c (encode i) s := by
  cases i with
  | getbit off => exact ⟨_, .inl rfl, exec_getbit_of_le hf (by simpa [Instr.wf, Nat.lt_iff_add_one_le] using h)⟩
  | putbit off v => exact ⟨_, .inl rfl, exec_putbit_of_le hf v (by simpa [Instr.wf, Nat.lt_iff_add_one_le] using h)⟩
  | xwf k n => exact ⟨_, .inr rfl, exec_xwf_of_not_range hf (mt (xwf_wf_iff k n).mpr (by simp [h]))⟩
  | xwb k n => exact ⟨_, .inr rfl, exec_xwb_of_not_range hf (mt (xwb_wf_iff k n).mpr (by simp [h]))⟩
  | _ => cases h

end

/-! ### The words that no command has (30_encoding.md R54) -/

/-- Every command's word has an assigned opcode, and the must-be-zero bits of its format are zero. -/
theorem encode_layout (i : Instr) :
    ((opcodeOf (encode i) = 1 ∨ opcodeOf (encode i) = 3 ∨ opcodeOf (encode i) = 4) ∧
      (encode i).toNat / 512 % 8 = 0) ∨
    (opcodeOf (encode i) = 2 ∧ (encode i).toNat / 1024 % 4 = 0) ∨
    ((5 ≤ opcodeOf (encode i) ∧ opcodeOf (encode i) ≤ 11) ∧ (encode i).toNat % 4096 = 0) := by
  rw [opcodeOf]
  cases i with
  | getbit off =>
    have hw := toNat_encode_getbit off
    omega
  | putbit off v =>
    have hw := toNat_encode_putbit off v
    have hv := v.toNat_lt
    omega
  | xwf k n =>
    have hw := toNat_encode_xwf k n
    omega
  | xwb k n =>
    have hw := toNat_encode_xwb k n
    omega
  | _ => decide

/-! ### A word issued -/

theorem step_issue {s : State} {w : CmdWord} {rest : List HostAction} (h : s.host = .issue w :: rest) :
    step s = issueWord w (s.setHost rest) := step_action h

/-- Words that no command has raise ILLEGAL_CMD (30_encoding.md R54). -/
theorem illegalWhen_of_not_encode {P : CmdWord → Prop} (h : ∀ i, ¬ P (encode i)) : IllegalWhen P := by
  intro s w rest hP hf hs
  obtain ⟨e, he⟩ := decode_error_of_not_encode fun i hi => h i (hi ▸ hP)
  have hrest : (s.setHost rest).flt = false := hf
  rw [step_issue hs, issueWord_error he, unlessFaulted_of_not_flt hrest]
  rfl

theorem tableWord_toNat (w : CmdWord) : tableWord 16 w.toNat = w := by
  rw [tableWord, Nat.mod_eq_of_lt w.isLt, BitVec.ofNat_toNat, BitVec.setWidth_eq]

/-! ### The obligations -/

/-- Settles O2: each field of the word is read back where the encoder put it. -/
theorem decodeOfEncodeIsTheInstruction : Obligations.DecodeOfEncodeIsTheInstruction := decode_encode

/-- Settles O3: the must-be-zero bits are zero, and the fields of a format are all the other bits. -/
theorem encodeOfDecodedIsTheWord : Obligations.EncodeOfDecodedIsTheWord := fun _ _ => encode_of_decode

/-- Settles O1: a masked word is its number with the operand bits cleared. -/
theorem opcodeMapMatchAndMask : Obligations.OpcodeMapMatchAndMask :=
  ⟨fun w => ⟨decode_getbit_iff_row w, decode_putbit_iff_row w, decode_xwf_iff_row w, decode_xwb_iff_row w,
      decode_eq_ok_iff_full_row w .setup, decode_eq_ok_iff_full_row w .rot1, decode_eq_ok_iff_full_row w .clock,
      decode_eq_ok_iff_full_row w .ksbyte, decode_eq_ok_iff_full_row w .warmup,
      decode_eq_ok_iff_full_row w .cipherIp, decode_eq_ok_iff_full_row w .cipherCp⟩,
    toNat_encode_getbit, toNat_encode_putbit, toNat_encode_xwf, toNat_encode_xwb, rfl, rfl, rfl, rfl, rfl, rfl, rfl⟩

/-- Settles O4: no command's word is in any of the illegal classes, and an operand's range is checked by the command. -/
theorem illegalWordsRaiseIllegalCmd : Obligations.IllegalWordsRaiseIllegalCmd := by
  refine ⟨illegalWhen_of_not_encode fun i hno => hno i.row (row_mem_opcodeMap i) (encode_isMatch_row i), ?_, ?_, ?_, ?_, ?_⟩
  · refine illegalWhen_of_not_encode fun i hop => ?_
    have := encode_layout i
    beta_reduce at hop
    omega
  · refine illegalWhen_of_not_encode fun i ⟨hop, hmbz⟩ => ?_
    have := encode_layout i
    simp only [List.mem_cons, List.not_mem_nil, or_false] at hop
    omega
  · refine illegalWhen_of_not_encode fun i ⟨hop, hmbz⟩ => ?_
    have := encode_layout i
    omega
  · refine illegalWhen_of_not_encode fun i ⟨hlo, hhi, hmbz⟩ => ?_
    have := encode_layout i
    omega
  · intro s w rest i hf hs hd hwf
    obtain ⟨c, hc, hexec⟩ := exec_of_not_wf (s := s.setHost rest) hf hwf
    refine ⟨c, hc, ?_⟩
    rw [step_issue hs, issueWord_ok hd, hexec, encode_of_decode hd]
    rfl

/-- Settles O5: the fields are read off the encoded word's number; out of range each command raises its own cause. -/
theorem operandFieldsAndTheirRanges : Obligations.OperandFieldsAndTheirRanges := by
  refine ⟨fun w off hd => ?_, fun w off v hd => ?_, fun w k n hd => ?_, fun s off v hf h => ?_, fun s k n hf h => ?_⟩
  · have hw := toNat_encode_getbit off
    rw [encode_of_decode hd] at hw
    omega
  · have hw := toNat_encode_putbit off v
    have hv := v.toNat_lt
    rw [encode_of_decode hd] at hw
    omega
  · obtain hd | hd := hd
    · have hw := toNat_encode_xwf k n
      rw [encode_of_decode hd] at hw
      omega
    · have hw := toNat_encode_xwb k n
      rw [encode_of_decode hd] at hw
      omega
  · exact ⟨exec_getbit_of_le hf h, exec_putbit_of_le hf v h⟩
  · have hrange : ¬ XwRange 36 k.toNat n.toNat := by omega
    exact ⟨exec_xwf_of_not_range hf hrange, exec_xwb_of_not_range hf hrange⟩

/-- Settles O6: the words are closed, and the decoder computes. -/
theorem wordsOfTheSpecDecode : Obligations.WordsOfTheSpecDecode := by
  unfold Obligations.WordsOfTheSpecDecode
  decide

/-- Settles O7: the word is taken from the command port, and the command it decodes to runs. -/
theorem stepRunsTheDecodedCommand : Obligations.StepRunsTheDecodedCommand := by
  intro s w i hd
  have hissue : ∀ {u : State} {rest}, u.host = .issue w :: rest → step u = exec i (u.setHost rest) := fun hs => by
    rw [step_issue hs, issueWord_ok hd]
  exact ⟨fun rest hs => hissue hs, hissue (by rw [State.withFetchWord, tableWord_toNat])⟩

end Sys2Proof.Machine
end

section
/-!
SUPPORT. Which commands fault, and how, is decided by the fault registers, SV, the descriptors and BUFMAX alone (30_encoding.md R60).
-/

namespace Sys2Proof.Machine

/-! ### What a fault depends on -/

/-- Two states agree in all that a command's faults may depend on (30_encoding.md R60): the fault registers, SV, the descriptors
and BUFMAX. -/
structure SameControl (s s' : State) : Prop where
  flt : s.flt = s'.flt
  cause : s.cause = s'.cause
  fcmd : s.fcmd = s'.fcmd
  sv : s.sv = s'.sv
  klen : s.klen = s'.klen
  vlen : s.vlen = s'.vlen
  len : s.len = s'.len
  bufmax : s.cfg.bufmax = s'.cfg.bufmax

theorem SameControl.symm {s s' : State} (h : SameControl s s') : SameControl s' s :=
  ⟨h.flt.symm, h.cause.symm, h.fcmd.symm, h.sv.symm, h.klen.symm, h.vlen.symm, h.len.symm, h.bufmax.symm⟩

theorem SameControl.exists_st {s s' : State} (h : SameControl s s') {b : St} (hb : s.st = some b) :
    ∃ b', s'.st = some b' := by
  have hsv : s'.sv = true := by rw [← h.sv, State.sv, hb]; rfl
  exact Option.isSome_iff_exists.mp hsv

theorem SameControl.keyIvSizeBad_eq {s s' : State} (h : SameControl s s') : s'.keyIvSizeBad = s.keyIvSizeBad := by
  rw [State.keyIvSizeBad, State.keyIvSizeBad, h.klen, h.vlen]

theorem SameControl.cipherSizeBad_eq {s s' : State} (h : SameControl s s') : s'.cipherSizeBad = s.cipherSizeBad := by
  rw [State.cipherSizeBad, State.cipherSizeBad, h.keyIvSizeBad_eq, h.len, h.bufmax]

/-- A command that completes on one state completes on every state that agrees with it in control. -/
theorem Completes.exists_of_sameControl {i : Instr} {s s' t : State} (h : Completes s i t) (hs : SameControl s s') :
    ∃ t', Completes s' i t' := by
  cases h with
  | getbit hb hl => obtain ⟨b', hb'⟩ := hs.exists_st hb; exact ⟨_, .getbit hb' hl⟩
  | putbit hb hl => obtain ⟨b', hb'⟩ := hs.exists_st hb; exact ⟨_, .putbit hb' hl⟩
  | xwf hb hl => obtain ⟨b', hb'⟩ := hs.exists_st hb; exact ⟨_, .xwf hb' hl⟩
  | xwb hb hl => obtain ⟨b', hb'⟩ := hs.exists_st hb; exact ⟨_, .xwb hb' hl⟩
  | setup hk => exact ⟨_, .setup (hs.keyIvSizeBad_eq.trans hk)⟩
  | rot1 hb => obtain ⟨b', hb'⟩ := hs.exists_st hb; exact ⟨_, .rot1 hb'⟩
  | clock hb => obtain ⟨b', hb'⟩ := hs.exists_st hb; exact ⟨_, .clock hb'⟩
  | ksbyte hb => obtain ⟨b', hb'⟩ := hs.exists_st hb; exact ⟨_, .ksbyte hb'⟩
  | warmup hb => obtain ⟨b', hb'⟩ := hs.exists_st hb; exact ⟨_, .warmup hb'⟩
  | cipherIp hc => exact ⟨_, .cipherIp (hs.cipherSizeBad_eq.trans hc)⟩
  | cipherCp hc => exact ⟨_, .cipherCp (hs.cipherSizeBad_eq.trans hc)⟩

/-! ### A completion is what the command answers -/

/-- The converse of `exec_next_cases` for a completion. -/
theorem Completes.exec_eq {i : Instr} {s t : State} (h : Completes s i t) (hf : s.flt = false) : exec i s = .next t := by
  have run : ∀ {r : Result}, r = .next t → unlessFaulted s r = .next t := (unlessFaulted_of_not_flt hf _).trans
  cases h with
  | getbit hb hl => exact run ((dif_pos hl).trans (onState_of_some hb _))
  | putbit hb hl => exact run ((dif_pos hl).trans (onState_of_some hb _))
  | xwf hb hl => exact run ((dif_pos hl).trans (onState_of_some hb _))
  | xwb hb hl => exact run ((dif_pos hl).trans (onState_of_some hb _))
  | rot1 hb | clock hb | ksbyte hb | warmup hb => exact run (onState_of_some hb _)
  | setup hk => exact run (if_neg (by simp [hk]))
  | cipherIp hc | cipherCp hc => exact run (if_neg (by simp [hc]))

theorem Completes.flt_eq {i : Instr} {s t : State} (h : Completes s i t) : t.flt = s.flt := by cases h <;> rfl

/-- A completed command leaves a state, but for the CIPHER commands, which discard it. -/
theorem Completes.sv_iff {i : Instr} {s t : State} (h : Completes s i t) :
    t.sv = true ↔ i ≠ .cipherIp ∧ i ≠ .cipherCp := by
  cases h with
  | getbit hb => simp [State.sv, hb]
  | _ => simp [State.sv]

/-- A word can fault with one cause only (60_exceptions.md R142). -/
theorem faultAllowed_unique {w : CmdWord} {c d : Cause} (hc : faultAllowed w c = true) (hd : faultAllowed w d = true) :
    c = d := by
  cases hw : decode w with
  | error e => simp_all [faultAllowed]
  | ok i => cases i <;> simp_all [faultAllowed]

/-! ### The outcomes on two states that agree in control -/

theorem issueWord_completes_of_sameControl {w : CmdWord} {i : Instr} {s s' t t' : State} (hs : SameControl s s')
    (hf : s'.flt = false) (hd : decode w = .ok i) (hi : Completes s i t) (h' : issueWord w s' = .next t') :
    Completes s' i t' := by
  obtain ⟨u, hu⟩ := hi.exists_of_sameControl hs
  rw [issueWord_ok hd, hu.exec_eq hf] at h'
  cases h'
  exact hu

theorem Completes.sameControl {i : Instr} {s s' t t' : State} (hs : SameControl s s') (h : Completes s i t)
    (h' : Completes s' i t') : SameControl t t' := by
  obtain ⟨⟨hcfg, hklen, hvlen, hlen, -⟩, -, -, hcause, hfcmd⟩ := h.frame
  obtain ⟨⟨hcfg', hklen', hvlen', hlen', -⟩, -, -, hcause', hfcmd'⟩ := h'.frame
  exact {
    flt := by rw [h.flt_eq, h'.flt_eq, hs.flt]
    cause := by rw [hcause, hcause', hs.cause]
    fcmd := by rw [hfcmd, hfcmd', hs.fcmd]
    sv := Bool.eq_iff_iff.mpr (h.sv_iff.trans h'.sv_iff.symm)
    klen := by rw [hklen, hklen', hs.klen]
    vlen := by rw [hvlen, hvlen', hs.vlen]
    len := by rw [hlen, hlen', hs.len]
    bufmax := by rw [hcfg, hcfg', hs.bufmax] }

theorem FaultsOn.sameControl {w : CmdWord} {s s' t t' : State} (hs : SameControl s s') (h : FaultsOn w s t)
    (h' : FaultsOn w s' t') : SameControl t t' := by
  obtain ⟨c, hc, rfl⟩ := h
  obtain ⟨c', hc', rfl⟩ := h'
  exact { hs with flt := rfl, cause := faultAllowed_unique hc hc', fcmd := rfl }

/-- Agreement in control is kept by a word issued: both states refuse it, both complete it, or both fault, and then with the one
cause the word can have. -/
theorem issueWord_sameControl {w : CmdWord} {s s' t t' : State} (hs : SameControl s s') (h : issueWord w s = .next t)
    (h' : issueWord w s' = .next t') : SameControl t t' := by
  obtain ⟨hf, rfl⟩ | ⟨hf, hcases⟩ := issueWord_next_cases h
  · obtain ⟨-, rfl⟩ | ⟨hf', -⟩ := issueWord_next_cases h'
    · exact hs
    · cases hf.symm.trans (hs.flt.trans hf')
  obtain ⟨hf', rfl⟩ | ⟨hf', hcases'⟩ := issueWord_next_cases h'
  · cases hf.symm.trans (hs.flt.trans hf')
  obtain hfault | ⟨i, hd, hi⟩ := hcases
  · obtain hfault' | ⟨i, hd, hi'⟩ := hcases'
    · exact hfault.sameControl hs hfault'
    · exact (issueWord_completes_of_sameControl hs.symm hf hd hi' h).sameControl hs hi'
  · exact hi.sameControl hs (issueWord_completes_of_sameControl hs hf' hd hi h')

/-! ### The obligation -/

/-- Settles O47: states that agree in control go on agreeing in it. -/
theorem faultsDoNotDependOnData : Obligations.FaultsDoNotDependOnData := by
  intro s s' t t' w hflt hcause hfcmd hsv hklen hvlen hlen hbufmax h h'
  have ht := issueWord_sameControl ⟨hflt, hcause, hfcmd, hsv, hklen, hvlen, hlen, hbufmax⟩ h h'
  exact ⟨ht.flt, ht.cause, ht.fcmd, ht.sv⟩

end Sys2Proof.Machine
end

section
/-!
SUPPORT. The Bit Accessor over bit offsets in range (40_bit_accessor.md R70, R71, R74), the commands GETBIT and PUTBIT with a
legal offset; and the statements of 40_bit_accessor.md, settled.
-/

namespace Sys2Proof.Machine

/-! ### The mask of an offset -/

/-- The mask of an offset is the power of two of its bit. -/
theorem bitMask_eq_twoPow (off : Nat) : bitMask off = BitVec.twoPow 8 (7 - off % 8) := by
  refine BitVec.eq_of_getLsbD_eq fun i hi => ?_
  rw [bitMask_getLsbD, BitVec.getLsbD_twoPow, decide_eq_true (show 7 - off % 8 < 8 by omega), Bool.true_and]
  exact decide_eq_decide.mpr eq_comm

/-- The mask form of `getbit` (40_bit_accessor.md R70). -/
theorem getbit_iff_and_bitMask_ne_zero {L : Nat} (buf : Vector Byte L) (off : Nat) (h : off < 8 * L) (hk : off / 8 < L) :
    getbit buf off h = true ↔ buf[off / 8] &&& bitMask off ≠ 0x00#8 := by
  have hpow : BitVec.twoPow 8 (7 - off % 8) ≠ 0#8 := by
    have hbit := bitMask_getLsbD off (7 - off % 8)
    rw [bitMask_eq_twoPow, decide_eq_true rfl] at hbit
    exact fun hzero => by simp [hzero] at hbit
  rw [getbit_eq, bitMask_eq_twoPow, BitVec.and_twoPow]
  cases (buf[off / 8]).getLsbD (7 - off % 8) <;> simp [hpow]

/-! ### Bits by their number -/

theorem bitAt_of_lt {L : Nat} (b : Vector Byte L) {i : Nat} (h : i < 8 * L) : bitAt b i = getbit b i h := dif_pos h

theorem bitAt_putbit {L : Nat} (b : Vector Byte L) {a i : Nat} (v : Bool) (ha : a < 8 * L) (hi : i < 8 * L) :
    bitAt (putbit b a v ha) i = if i = a then v else bitAt b i := by
  rw [bitAt_of_lt _ hi, bitAt_of_lt _ hi, getbit_putbit]

/-- The bits of byte `k`, the most significant first (40_bit_accessor.md R74). -/
theorem bitAt_eq_getLsbD {L : Nat} (b : Vector Byte L) {k j : Nat} (hk : k < L) (hj : j < 8) :
    bitAt b (8 * k + j) = (b[k]).getLsbD (7 - j) := by
  rw [bitAt_of_lt b (by omega), getLsbD_eq_getbit b k (7 - j) (8 * k + j) hk (by omega) (by omega) (by omega)]

/-- A byte is the sum of its weighted bits. -/
theorem toNat_eq_sum_weighted_bits (x : Byte) :
    x.toNat = ((List.range 8).map fun j => (x.getLsbD (7 - j)).toNat * (128 / 2 ^ j)).sum := by
  have hx := x.isLt
  simp only [BitVec.getLsbD, Nat.toNat_testBit, List.range, List.range.loop, List.map, List.sum_cons, List.sum_nil]
  omega

/-! ### Writes that cancel, absorb or commute (40_bit_accessor.md R74) -/

section
variable {L : Nat} (buf : Vector Byte L) {a b : Nat} (ha : a < 8 * L) (hb : b < 8 * L)

theorem putbit_getbit : putbit buf a (getbit buf a ha) ha = buf := by
  refine buffer_ext_bits fun i hi => ?_
  rw [getbit_putbit]
  split
  next hia => simp only [hia]
  next => rfl

theorem putbit_putbit_same (v w : Bool) : putbit (putbit buf a v ha) a w ha = putbit buf a w ha := by
  refine buffer_ext_bits fun i hi => ?_
  simp only [getbit_putbit]
  split <;> rfl

theorem putbit_comm (v w : Bool) (hab : a ≠ b) :
    putbit (putbit buf a v ha) b w hb = putbit (putbit buf b w hb) a v ha := by
  refine buffer_ext_bits fun i hi => ?_
  simp only [getbit_putbit]
  by_cases hia : i = a
  · rw [if_pos hia, if_pos hia, if_neg fun hib => hab (hia.symm.trans hib)]
  · rw [if_neg hia, if_neg hia]

end

/-! ### GETBIT and PUTBIT with a legal offset -/

theorem onState_of_not_sv {s : State} (h : s.sv = false) (i : Instr) (f : St → State) :
    onState i s f = raise .stateInvalid (encode i) s :=
  onState_of_none (by simpa [State.sv] using h) f

section
variable {s : State} (hf : s.flt = false)
include hf

theorem exec_getbit_of_not_sv {off : BitVec 9} (h : off.toNat < 8 * 36) (hsv : s.sv = false) :
    exec (.getbit off) s = raise .stateInvalid (encode (.getbit off)) s := by
  rw [exec, execGetbit, unlessFaulted_of_not_flt hf, dif_pos h, onState_of_not_sv hsv]

theorem exec_putbit_of_not_sv {off : BitVec 9} (v : Bool) (h : off.toNat < 8 * 36) (hsv : s.sv = false) :
    exec (.putbit off v) s = raise .stateInvalid (encode (.putbit off v)) s := by
  rw [exec, execPutbit, unlessFaulted_of_not_flt hf, dif_pos h, onState_of_not_sv hsv]

end

/-! ### The obligations -/

/-- Settles O8: the shift form is the definition, and the mask is the power of two of the bit read. -/
theorem getbitReadsTheWeightedBit : Obligations.GetbitReadsTheWeightedBit :=
  fun _ buf off h hk => ⟨beq_iff_eq, getbit_iff_and_bitMask_ne_zero buf off h hk⟩

/-- Settles O9: the byte is set as the definition says, and `bitAt_putbit` gives every bit. -/
theorem putbitReplacesOneBit : Obligations.PutbitReplacesOneBit := by
  intro L buf off v h
  refine ⟨fun k hk => ?_, fun i hi hne => ?_, ?_⟩
  · rw [putbit, Vector.getElem_set]
    by_cases hbyte : k = off / 8
    · subst hbyte
      rw [if_pos rfl, if_pos rfl]
      rfl
    · rw [if_neg (Ne.symm hbyte), if_neg hbyte]
  · rw [bitAt_putbit buf v h hi, if_neg hne]
  · rw [bitAt_putbit buf v h h, if_pos rfl]

/-- Settles O10: each law holds bit by bit, and a byte is the sum of its weighted bits. -/
theorem accessorLaws : Obligations.AccessorLaws := by
  intro L buf a b v w ha hb
  refine ⟨?_, fun hab => ?_, putbit_getbit buf ha, putbit_putbit_same buf ha v w, putbit_comm buf ha hb v w,
    fun k hk => ?_⟩
  · rw [getbit_putbit, if_pos rfl]
  · rw [getbit_putbit, if_neg (Ne.symm hab)]
  · rw [toNat_eq_sum_weighted_bits]
    refine congrArg List.sum (List.map_congr_left fun j hj => ?_)
    rw [bitAt_eq_getLsbD buf hk (List.mem_range.mp hj)]

/-- Settles O11: the offset is checked before the state, and the word classes are those of `illegalWordsRaiseIllegalCmd`. -/
theorem getbitCommand : Obligations.GetbitCommand := by
  obtain ⟨-, -, hillegal, -⟩ := illegalWordsRaiseIllegalCmd
  refine ⟨fun s off hf => ⟨exec_getbit_of_le hf, fun hle => exec_getbit_of_not_sv hf (by omega), fun b hle hb => ?_⟩,
    fun s w rest ⟨hop, hmbz⟩ => hillegal s w rest ⟨by simp [hop], hmbz⟩⟩
  have hlt : off.toNat < 8 * 36 := by omega
  rw [(Completes.getbit hb hlt).exec_eq hf, bitAt_of_lt b hlt]
  rfl

/-- Settles O12: the offset is checked before the state, and `bitAt_putbit` gives every bit of the new register. -/
theorem putbitCommand : Obligations.PutbitCommand := by
  obtain ⟨-, -, -, hillegal, -⟩ := illegalWordsRaiseIllegalCmd
  refine ⟨fun s off v hf =>
    ⟨exec_putbit_of_le hf v, fun hle => exec_putbit_of_not_sv hf v (by omega), fun b hle hb => ?_⟩, hillegal⟩
  have hlt : off.toNat < 8 * 36 := by omega
  exact ⟨putbit b off.toNat v hlt, (Completes.putbit hb hlt).exec_eq hf, fun i hi => bitAt_putbit b v hlt hi⟩

end Sys2Proof.Machine
end

section
/-!
SUPPORT. The Crosswrite Shifter byte by byte and in flat bit offsets (41_crosswrite.md R80, R81, R84), the commands XWF and XWB
with legal operands and SV = 0; and the statements of 41_crosswrite.md, settled.
-/

namespace Sys2Proof.Machine

/-! ### A run of bits replaced in one byte -/

/-- `0xFF >> n` keeps the low `8 − n` bits. -/
theorem getLsbD_lowMask (n i : Nat) : (0xFF#8 >>> n).getLsbD i = decide (n + i < 8) := by
  rw [BitVec.getLsbD_ushiftRight]
  exact BitVec.getLsbD_allOnes

/-- A byte shifted left: zeros enter at the bottom. -/
theorem getLsbD_shiftLeft_byte (x : Byte) (n : Nat) {i : Nat} (hi : i < 8) :
    (x <<< n).getLsbD i = if i < n then false else x.getLsbD (i - n) := by
  rw [BitVec.getLsbD_shiftLeft, decide_eq_true hi]
  split
  next hlow => simp [hlow]
  next hhigh => simp [hhigh]

/-- `0xFF << n` keeps the high `8 − n` bits. -/
theorem getLsbD_highMask (n : Nat) {i : Nat} (hi : i < 8) : (0xFF#8 <<< n).getLsbD i = decide (n ≤ i) := by
  have hones : (0xFF#8).getLsbD (i - n) = decide (i - n < 8) := BitVec.getLsbD_allOnes
  rw [getLsbD_shiftLeft_byte _ _ hi, hones, decide_eq_true (by omega)]
  split
  next hlow => simp [hlow]
  next hhigh => simp [Nat.not_lt.mp hhigh]

section
variable (p s : Byte) {n : Nat}

/-- The destination byte of a forward crosswrite: its high `n` bits are the low `n` bits of the source byte. -/
theorem getLsbD_replaceHigh {i : Nat} (hi : i < 8) :
    ((s &&& (0xFF#8 >>> n)) ||| (p <<< (8 - n))).getLsbD i =
      if i < 8 - n then s.getLsbD i else p.getLsbD (i - (8 - n)) := by
  rw [BitVec.getLsbD_or, BitVec.getLsbD_and, getLsbD_lowMask, getLsbD_shiftLeft_byte _ _ hi]
  split
  next hlow => simp [show n + i < 8 by omega]
  next hhigh => simp [show ¬ n + i < 8 by omega]

/-- The destination byte of a backward crosswrite: its low `n` bits are the high `n` bits of the source byte. -/
theorem getLsbD_replaceLow {i : Nat} (hi : i < 8) :
    ((p &&& (0xFF#8 <<< n)) ||| (s >>> (8 - n))).getLsbD i =
      if i < n then s.getLsbD (8 - n + i) else p.getLsbD i := by
  rw [BitVec.getLsbD_or, BitVec.getLsbD_and, getLsbD_highMask _ hi, BitVec.getLsbD_ushiftRight]
  split
  next hlow => simp [show ¬ n ≤ i by omega]
  next hhigh => simp [show n ≤ i by omega, BitVec.getLsbD_of_ge s (8 - n + i) (by omega)]

theorem replaceHigh_ushiftRight :
    ((s &&& (0xFF#8 >>> n)) ||| (p <<< (8 - n))) >>> (8 - n) = p &&& (0xFF#8 >>> (8 - n)) := by
  refine BitVec.eq_of_getLsbD_eq fun i _ => ?_
  rw [BitVec.getLsbD_ushiftRight, BitVec.getLsbD_and, getLsbD_lowMask]
  by_cases hin : 8 - n + i < 8
  · rw [getLsbD_replaceHigh p s hin, if_neg (by omega), Nat.add_sub_cancel_left, decide_eq_true hin, Bool.and_true]
  · rw [BitVec.getLsbD_of_ge _ _ (by omega), decide_eq_false hin, Bool.and_false]

theorem replaceHigh_and_lowMask :
    ((s &&& (0xFF#8 >>> n)) ||| (p <<< (8 - n))) &&& (0xFF#8 >>> n) = s &&& (0xFF#8 >>> n) := by
  refine BitVec.eq_of_getLsbD_eq fun i hi => ?_
  rw [BitVec.getLsbD_and, BitVec.getLsbD_and, getLsbD_replaceHigh p s hi, getLsbD_lowMask]
  by_cases hin : n + i < 8
  · rw [if_pos (by omega)]
  · rw [decide_eq_false hin, Bool.and_false, Bool.and_false]

theorem replaceHigh_shiftLeft :
    ((s &&& (0xFF#8 >>> n)) ||| (p <<< (8 - n))) <<< n = (s &&& (0xFF#8 >>> n)) <<< n := by
  have hout : p <<< (8 - n) <<< n = 0#8 := by
    rw [← BitVec.shiftLeft_add]
    exact BitVec.shiftLeft_eq_zero (by omega)
  rw [BitVec.shiftLeft_or_distrib, hout, BitVec.or_zero]

theorem replaceLow_and_lowMask :
    ((p &&& (0xFF#8 <<< n)) ||| (s >>> (8 - n))) &&& (0xFF#8 >>> (8 - n)) = s >>> (8 - n) := by
  refine BitVec.eq_of_getLsbD_eq fun i hi => ?_
  rw [BitVec.getLsbD_and, getLsbD_replaceLow p s hi, getLsbD_lowMask, BitVec.getLsbD_ushiftRight]
  by_cases hin : 8 - n + i < 8
  · rw [if_pos (by omega), decide_eq_true hin, Bool.and_true]
  · rw [BitVec.getLsbD_of_ge s _ (by omega), decide_eq_false hin, Bool.and_false]

theorem replaceLow_and_highMask :
    ((p &&& (0xFF#8 <<< n)) ||| (s >>> (8 - n))) &&& (0xFF#8 <<< n) = p &&& (0xFF#8 <<< n) := by
  refine BitVec.eq_of_getLsbD_eq fun i hi => ?_
  rw [BitVec.getLsbD_and, BitVec.getLsbD_and, getLsbD_replaceLow p s hi, getLsbD_highMask _ hi]
  by_cases hin : n ≤ i
  · rw [if_neg (by omega)]
  · rw [decide_eq_false hin, Bool.and_false, Bool.and_false]

end

/-! ### The bytes after a crosswrite -/

section
variable {L : Nat} (buf : Vector Byte L) {k n : Nat} (h : XwRange L k n)

theorem getElem_xwf (hp : k - 1 < L) (i : Nat) (hi : i < L) :
    (xwf buf k n h)[i] =
      if i = k then (buf[k]'h.1.2 &&& (0xFF#8 >>> n)) ||| (buf[k - 1] <<< (8 - n))
      else if i = k - 1 then buf[k - 1] >>> n
      else buf[i] := by
  have hne : k ≠ k - 1 := by omega
  simp only [xwf, Vector.set_comm _ _ hne, Vector.getElem_set, eq_comm (a := i)]

theorem getElem_xwb (hp : k - 1 < L) (i : Nat) (hi : i < L) :
    (xwb buf k n h)[i] =
      if i = k - 1 then (buf[k - 1] &&& (0xFF#8 <<< n)) ||| (buf[k]'h.1.2 >>> (8 - n))
      else if i = k then buf[k]'h.1.2 <<< n
      else buf[i] := by
  have hne : k - 1 ≠ k := by omega
  simp only [xwb, Vector.set_comm _ _ hne, Vector.getElem_set, eq_comm (a := i)]

end

/-! ### The bits after a crosswrite (41_crosswrite.md R84) -/

/-- Bit `j` of byte `k`, from the least significant, by its flat offset. -/
theorem getLsbD_eq_bitAt {L : Nat} (b : Vector Byte L) {k j i : Nat} (hk : k < L) (hj : j < 8) (h : i = 8 * k + 7 - j) :
    (b[k]).getLsbD j = bitAt b i := by
  rw [bitAt_of_lt b (by omega), getLsbD_eq_getbit b k j i hk (by omega) h hj]

theorem bitAt_of_le {L : Nat} (b : Vector Byte L) {i : Nat} (h : 8 * L ≤ i) : bitAt b i = false :=
  dif_neg (Nat.not_lt.mpr h)

section
variable {L : Nat} (buf : Vector Byte L) {k n : Nat} (h : XwRange L k n)

/-- The forward crosswrite moves the eight bits of byte `k − 1` up by `n` offsets and brings `n` zeros in below them. -/
theorem bitAt_xwf (i : Nat) :
    bitAt (xwf buf k n h) i =
      if 8 * (k - 1) ≤ i ∧ i < 8 * (k - 1) + n then false
      else if 8 * (k - 1) + n ≤ i ∧ i < 8 * k + n then bitAt buf (i - n)
      else bitAt buf i := by
  by_cases hi : i < 8 * L
  case neg => rw [bitAt_of_le _ (by omega), bitAt_of_le buf (i := i) (by omega), if_neg (by omega), if_neg (by omega)]
  rw [bitAt_of_lt _ hi, getbit_eq, getElem_xwf buf h (by omega)]
  obtain hbyte | hbyte | ⟨hk, hp⟩ : i / 8 = k ∨ i / 8 = k - 1 ∨ (i / 8 ≠ k ∧ i / 8 ≠ k - 1) := by omega
  · rw [if_pos hbyte, getLsbD_replaceHigh _ _ (by omega)]
    by_cases hkept : 7 - i % 8 < 8 - n
    · rw [if_pos hkept, if_neg (by omega), if_neg (by omega)]
      exact getLsbD_eq_bitAt buf _ (by omega) (by omega)
    · rw [if_neg hkept, if_neg (by omega), if_pos (by omega)]
      exact getLsbD_eq_bitAt buf _ (by omega) (by omega)
  · rw [if_neg (by omega), if_pos hbyte, BitVec.getLsbD_ushiftRight]
    by_cases hvacated : i < 8 * (k - 1) + n
    · rw [if_pos (by omega), BitVec.getLsbD_of_ge _ _ (by omega)]
    · rw [if_neg (by omega), if_pos (by omega)]
      exact getLsbD_eq_bitAt buf _ (by omega) (by omega)
  · rw [if_neg hk, if_neg hp, if_neg (by omega), if_neg (by omega)]
    exact getLsbD_eq_bitAt buf _ (by omega) (by omega)

/-- The backward crosswrite moves the eight bits of byte `k` down by `n` offsets and brings `n` zeros in above them. -/
theorem bitAt_xwb (i : Nat) :
    bitAt (xwb buf k n h) i =
      if 8 * k - n ≤ i ∧ i < 8 * k + 8 - n then bitAt buf (i + n)
      else if 8 * k + 8 - n ≤ i ∧ i < 8 * k + 8 then false
      else bitAt buf i := by
  by_cases hi : i < 8 * L
  case neg => rw [bitAt_of_le _ (by omega), bitAt_of_le buf (i := i) (by omega), if_neg (by omega), if_neg (by omega)]
  rw [bitAt_of_lt _ hi, getbit_eq, getElem_xwb buf h (by omega)]
  obtain hbyte | hbyte | ⟨hk, hp⟩ : i / 8 = k - 1 ∨ i / 8 = k ∨ (i / 8 ≠ k ∧ i / 8 ≠ k - 1) := by omega
  · rw [if_pos hbyte, getLsbD_replaceLow _ _ (by omega)]
    by_cases hrun : 7 - i % 8 < n
    · rw [if_pos hrun, if_pos (by omega)]
      exact getLsbD_eq_bitAt buf _ (by omega) (by omega)
    · rw [if_neg hrun, if_neg (by omega), if_neg (by omega)]
      exact getLsbD_eq_bitAt buf _ (by omega) (by omega)
  · rw [if_neg (by omega), if_pos hbyte, getLsbD_shiftLeft_byte _ _ (by omega)]
    by_cases hvacated : 7 - i % 8 < n
    · rw [if_pos hvacated, if_neg (by omega), if_pos (by omega)]
    · rw [if_neg hvacated, if_pos (by omega)]
      exact getLsbD_eq_bitAt buf _ (by omega) (by omega)
  · rw [if_neg hp, if_neg hk, if_neg (by omega), if_neg (by omega)]
    exact getLsbD_eq_bitAt buf _ (by omega) (by omega)

end

/-! ### XWF and XWB with legal operands and SV = 0 -/

section
variable {s : State} {k : BitVec 6} {n : BitVec 3} (hf : s.flt = false) (h : XwRange 36 k.toNat n.toNat)
  (hsv : s.sv = false)
include hf h hsv

theorem exec_xwf_of_not_sv : exec (.xwf k n) s = raise .stateInvalid (encode (.xwf k n)) s := by
  rw [exec, execXwf, unlessFaulted_of_not_flt hf, dif_pos h, onState_of_not_sv hsv]

theorem exec_xwb_of_not_sv : exec (.xwb k n) s = raise .stateInvalid (encode (.xwb k n)) s := by
  rw [exec, execXwb, unlessFaulted_of_not_flt hf, dif_pos h, onState_of_not_sv hsv]

end

/-! ### The obligations -/

/-- Settles O13: the two bytes are set one after the other, from the old values. -/
theorem crosswriteBytes : Obligations.CrosswriteBytes :=
  fun _ buf _ _ h hp => ⟨getElem_xwf buf h hp, getElem_xwb buf h hp⟩

/-- Settles O14: each equation is one branch of `bitAt_xwf` or `bitAt_xwb`. -/
theorem crosswriteInFlatOffsets : Obligations.CrosswriteInFlatOffsets := by
  intro L buf k n j h
  simp only [bitAt_xwf, bitAt_xwb]
  refine ⟨fun hj => ?_, fun hn hj => ?_, fun hj => ?_, fun hn hj => ?_, fun hj => ?_, fun hj => ?_, fun hj => ?_,
    fun hn hj => ?_⟩
  · rw [if_neg (by omega), if_pos (by omega), show 8 * k + j - n = 8 * k - n + j by omega]
  · rw [if_neg (by omega), if_neg (by omega)]
  · rw [if_pos (by omega)]
  · rw [if_neg (by omega), if_pos (by omega)]
  · rw [if_pos (by omega), show 8 * k - n + j + n = 8 * k + j by omega]
  · rw [if_neg (by omega), if_neg (by omega)]
  · rw [if_pos (by omega)]
  · rw [if_neg (by omega), if_pos (by omega)]

/-- Settles O15: the destination bytes of `getElem_xwf` and `getElem_xwb`, cut to the run and to the rest. -/
theorem crosswriteReplacesAndKeeps : Obligations.CrosswriteReplacesAndKeeps := by
  intro L buf k n h hk hp
  rw [getElem_xwf buf h hp k, getElem_xwb buf h hp (k - 1), if_pos rfl, if_pos rfl]
  exact ⟨replaceHigh_ushiftRight _ _, replaceHigh_and_lowMask _ _, replaceLow_and_lowMask _ _,
    replaceLow_and_highMask _ _⟩

/-- Settles O16: the bytes are those of `getElem_xwb` over those of `getElem_xwf`; each order of the two clears a bit, so neither
restores a buffer of ones. -/
theorem crosswritesAreNotInverse : Obligations.CrosswritesAreNotInverse := by
  refine ⟨fun L buf k n h hk hp => ?_, fun n hn h => ⟨#v[0xFF#8, 0xFF#8], fun heq => ?_, fun heq => ?_⟩⟩
  · have hne : k - 1 ≠ k := by omega
    have hsplit : (xwf buf k n h)[k] = (buf[k] &&& (0xFF#8 >>> n)) ||| (buf[k - 1] <<< (8 - n)) := by
      rw [getElem_xwf buf h hp, if_pos rfl]
    have hprev : (xwf buf k n h)[k - 1] = buf[k - 1] >>> n := by
      rw [getElem_xwf buf h hp, if_neg hne, if_pos rfl]
    rw [getElem_xwb _ h hp (k - 1), getElem_xwb _ h hp k, if_pos rfl, if_neg hne.symm, if_pos rfl, hsplit, hprev]
    exact ⟨by rw [replaceHigh_ushiftRight], replaceHigh_shiftLeft _ _⟩
  · have hcleared : bitAt (xwb (xwf #v[0xFF#8, 0xFF#8] 1 n h) 1 n h) 15 = false := by
      rw [bitAt_xwb, if_neg (by omega), if_pos (by omega)]
    rw [heq] at hcleared
    exact absurd hcleared (by decide)
  · have hcleared : bitAt (xwf (xwb #v[0xFF#8, 0xFF#8] 1 n h) 1 n h) 0 = false := by
      rw [bitAt_xwf, if_pos (by omega)]
    rw [heq] at hcleared
    exact absurd hcleared (by decide)

/-- Settles O17: the operands are checked before the state, and the word class is one of `illegalWordsRaiseIllegalCmd`. -/
theorem xwfCommand : Obligations.XwfCommand := by
  obtain ⟨-, -, hillegal, -⟩ := illegalWordsRaiseIllegalCmd
  exact ⟨fun s k n hf =>
    ⟨fun hbad => exec_xwf_of_not_range hf (by omega), fun _ _ _ => exec_xwf_of_not_sv hf (by omega),
      fun b h hb => (Completes.xwf hb h).exec_eq hf⟩,
    fun s w rest ⟨hop, hmbz⟩ => hillegal s w rest ⟨by simp [hop], hmbz⟩⟩

/-- Settles O18: the operands are checked before the state, and the word class is one of `illegalWordsRaiseIllegalCmd`. -/
theorem xwbCommand : Obligations.XwbCommand := by
  obtain ⟨-, -, hillegal, -⟩ := illegalWordsRaiseIllegalCmd
  exact ⟨fun s k n hf =>
    ⟨fun hbad => exec_xwb_of_not_range hf (by omega), fun _ _ _ => exec_xwb_of_not_sv hf (by omega),
      fun b h hb => (Completes.xwb hb h).exec_eq hf⟩,
    fun s w rest ⟨hop, hmbz⟩ => hillegal s w rest ⟨by simp [hop], hmbz⟩⟩

end Sys2Proof.Machine
end

section
/-!
SUPPORT. The five steps of the State Initializer in flat bit offsets (42_state_initializer.md R90, R91), and SETUP with illegal
lengths; and the statements of 42_state_initializer.md, settled.
-/

namespace Sys2Proof.Machine

/-! ### Bits by their number -/

/-- Two buffers with the same bits are equal. -/
theorem buffer_ext_bitAt {L : Nat} {b c : Vector Byte L} (h : ∀ i, i < 8 * L → bitAt b i = bitAt c i) : b = c :=
  buffer_ext_bits fun i hi => by rw [← bitAt_of_lt b hi, ← bitAt_of_lt c hi, h i hi]

theorem bitAt_set {L : Nat} (b : Vector Byte L) (k : Nat) (v : Byte) (hk : k < L) (i : Nat) :
    bitAt (b.set k v hk) i = if i / 8 = k then v.getLsbD (7 - i % 8) else bitAt b i := by
  by_cases hi : i < 8 * L
  · rw [bitAt_of_lt _ hi, bitAt_of_lt _ hi, getbit_set]
  · rw [bitAt_of_le _ (by omega), bitAt_of_le b (by omega), if_neg (by omega)]

theorem bitAt_replicate {L : Nat} (v : Byte) {i : Nat} (hi : i < 8 * L) :
    bitAt (Vector.replicate L v) i = v.getLsbD (7 - i % 8) := by
  rw [bitAt_of_lt _ hi, getbit_eq, Vector.getElem_replicate]

/-! ### The steps of the procedure (42_state_initializer.md R90) -/

/-- Steps 2 to 4, the cleared bytes. -/
theorem bitAt_zeroBytes (b : St) (lo count : Nat) (h : lo + count ≤ 36) (i : Nat) :
    bitAt (zeroBytes b lo count h) i = if 8 * lo ≤ i ∧ i < 8 * (lo + count) then false else bitAt b i := by
  induction count with
  | zero => rw [zeroBytes, if_neg (by omega)]
  | succ c ih =>
    rw [zeroBytes, bitAt_set, ih]
    by_cases hlast : i / 8 = lo + c
    · rw [if_pos hlast, if_pos (by omega), BitVec.getLsbD_zero]
    · rw [if_neg hlast]
      exact if_congr (by omega) rfl rfl

/-- Step 1, the key's bytes. -/
theorem bitAt_placeKey (b : St) (K : Vector Byte 10) (count : Nat) (h : count ≤ 10) (i : Nat) :
    bitAt (placeKey b K count h) i = if i < 8 * count then bitAt K i else bitAt b i := by
  induction count with
  | zero => rw [placeKey, if_neg (by omega)]
  | succ c ih =>
    rw [placeKey, bitAt_set, ih]
    by_cases hlast : i / 8 = c
    · rw [if_pos hlast, if_pos (by omega)]
      exact getLsbD_eq_bitAt K _ (by omega) (by omega)
    · rw [if_neg hlast]
      exact if_congr (by omega) rfl rfl

/-- Step 3: after `count` rounds the first `8 count` bits of the IV stand from offset 93 on, and three zeros after them. -/
theorem bitAt_placeIv (b : St) (V : Vector Byte 10) (count : Nat) (h : count ≤ 10) (i : Nat) :
    bitAt (placeIv b V count h) i =
      if 93 ≤ i ∧ i < 93 + 8 * count then bitAt V (i - 93)
      else if 93 + 8 * count ≤ i ∧ i < 96 + 8 * count ∧ 0 < count then false
      else bitAt b i := by
  induction count generalizing i with
  | zero => rw [placeIv, if_neg (by omega), if_neg (by omega)]
  | succ c ih =>
    rw [placeIv, bitAt_xwb]
    obtain hmoved | hvacated | hkept : (93 + 8 * c ≤ i ∧ i < 101 + 8 * c) ∨ (101 + 8 * c ≤ i ∧ i < 104 + 8 * c) ∨
        (i < 93 + 8 * c ∨ 104 + 8 * c ≤ i) := by omega
    · rw [if_pos (by omega), bitAt_set, if_pos (by omega), if_pos (by omega)]
      exact getLsbD_eq_bitAt V _ (by omega) (by omega)
    · rw [if_neg (by omega), if_pos (by omega), if_neg (by omega), if_pos (by omega)]
    · rw [if_neg (by omega), if_neg (by omega), bitAt_set, if_neg (by omega), ih]
      refine if_congr (by omega) rfl ?_
      rw [if_neg (by omega), if_neg (by omega)]

/-- The whole procedure: no offset keeps what the register held before. -/
theorem bitAt_setupOver (b : St) (K V : Vector Byte 10) (i : Nat) :
    bitAt (setupOver b K V) i =
      if i < 80 then bitAt K i
      else if 93 ≤ i ∧ i < 173 then bitAt V (i - 93)
      else decide (285 ≤ i ∧ i < 288) := by
  by_cases hi : i < 288
  case neg => rw [bitAt_of_le _ (by omega), if_neg (by omega), if_neg (by omega), decide_eq_false (by omega)]
  have hsuffix : (0x07#8).getLsbD (7 - i % 8) = decide (5 + (7 - i % 8) < 8) := getLsbD_lowMask 5 _
  rw [setupOver, bitAt_set, hsuffix, bitAt_zeroBytes, bitAt_placeIv, bitAt_zeroBytes, bitAt_zeroBytes, bitAt_placeKey]
  obtain hkey | hgap | hiv | hpad | hzero | hlast : i < 80 ∨ (80 ≤ i ∧ i < 93) ∨ (93 ≤ i ∧ i < 173) ∨
      (173 ≤ i ∧ i < 176) ∨ (176 ≤ i ∧ i < 280) ∨ 280 ≤ i := by omega
  · rw [if_neg (by omega), if_neg (by omega), if_neg (by omega), if_neg (by omega), if_neg (by omega), if_neg (by omega),
      if_pos (by omega), if_pos hkey]
  · rw [if_neg (by omega), if_neg (by omega), if_neg (by omega), if_neg (by omega)]
    by_cases hten : i < 88
    · rw [if_neg (by omega), if_pos (by omega), if_neg (by omega), if_neg (by omega), decide_eq_false (by omega)]
    · rw [if_pos (by omega), if_neg (by omega), if_neg (by omega), decide_eq_false (by omega)]
  · rw [if_neg (by omega), if_neg (by omega), if_pos (by omega), if_neg (by omega), if_pos hiv]
  · rw [if_neg (by omega), if_neg (by omega), if_neg (by omega), if_pos (by omega), if_neg (by omega), if_neg (by omega),
      decide_eq_false (by omega)]
  · rw [if_neg (by omega), if_pos (by omega), if_neg (by omega), if_neg (by omega), decide_eq_false (by omega)]
  · rw [if_pos (by omega), if_neg (by omega), if_neg (by omega)]
    exact decide_eq_decide.mpr (by omega)

theorem bitAt_setup (K V : Vector Byte 10) (i : Nat) :
    bitAt (setup K V) i =
      if i < 80 then bitAt K i
      else if 93 ≤ i ∧ i < 173 then bitAt V (i - 93)
      else decide (285 ≤ i ∧ i < 288) := bitAt_setupOver _ K V i

theorem bitAt_setup_key (K V : Vector Byte 10) {i : Nat} (hi : i < 80) : bitAt (setup K V) i = bitAt K i := by
  rw [bitAt_setup, if_pos hi]

theorem bitAt_setup_iv (K V : Vector Byte 10) {i : Nat} (hi : i < 80) : bitAt (setup K V) (93 + i) = bitAt V i := by
  rw [bitAt_setup, if_neg (by omega), if_pos (by omega), Nat.add_sub_cancel_left]

theorem bitAt_setup_suffix (K V : Vector Byte 10) {i : Nat} (hlo : 285 ≤ i) (hhi : i < 288) :
    bitAt (setup K V) i = true := by
  rw [bitAt_setup, if_neg (by omega), if_neg (by omega), decide_eq_true ⟨hlo, hhi⟩]

/-- The zeros between the key, the IV and the suffix. -/
theorem bitAt_setup_gap (K V : Vector Byte 10) {i : Nat} (hi : (80 ≤ i ∧ i < 93) ∨ (173 ≤ i ∧ i < 285)) :
    bitAt (setup K V) i = false := by
  rw [bitAt_setup, if_neg (by omega), if_neg (by omega), decide_eq_false (by omega)]

/-- Every bit of the key and IV can be 1 after `setup`. -/
theorem bitAt_setup_ones {i : Nat} (hi : i < 80 ∨ (93 ≤ i ∧ i < 173)) :
    bitAt (setup (Vector.replicate 10 0xFF#8) (Vector.replicate 10 0xFF#8)) i = true := by
  have hones : ∀ {j : Nat}, j < 80 → bitAt (Vector.replicate 10 0xFF#8) j = true := fun hj => by
    rw [bitAt_replicate _ hj]
    exact BitVec.getLsbD_allOnes.trans (decide_eq_true (by omega))
  obtain hkey | ⟨hlo, hhi⟩ := hi
  · rw [bitAt_setup_key _ _ hkey, hones hkey]
  · rw [bitAt_setup, if_neg (by omega), if_pos ⟨hlo, hhi⟩, hones (by omega)]

theorem setup_injective {K V K' V' : Vector Byte 10} (h : setup K V = setup K' V') : K = K' ∧ V = V' := by
  refine ⟨buffer_ext_bitAt fun i hi => ?_, buffer_ext_bitAt fun i hi => ?_⟩
  · rw [← bitAt_setup_key K V hi, h, bitAt_setup_key K' V' hi]
  · rw [← bitAt_setup_iv K V hi, h, bitAt_setup_iv K' V' hi]

/-! ### The bytes after the procedure (42_state_initializer.md R94) -/

/-- Bit `j` of byte `k`, from the least significant, by its flat offset. -/
theorem getLsbD_setup (K V : Vector Byte 10) {k j : Nat} (hk : k < 36) (hj : j < 8) :
    ((setup K V)[k]).getLsbD j = bitAt (setup K V) (8 * k + 7 - j) := getLsbD_eq_bitAt _ hk hj rfl

section
variable (K V : Vector Byte 10)

theorem getElem_setup_key {i : Nat} (hi : i < 10) (hst : i < 36) : (setup K V)[i] = K[i] := by
  refine BitVec.eq_of_getLsbD_eq fun j hj => ?_
  rw [getLsbD_setup K V hst hj, bitAt_setup_key K V (by omega)]
  exact (getLsbD_eq_bitAt K hi hj rfl).symm

theorem getElem_setup_zero {k : Nat} (hk : k < 36) (hz : k = 10 ∨ (22 ≤ k ∧ k ≤ 34)) : (setup K V)[k] = 0x00#8 := by
  refine BitVec.eq_of_getLsbD_eq fun j hj => ?_
  rw [getLsbD_setup K V hk hj, bitAt_setup_gap K V (by omega), BitVec.getLsbD_zero]

/-- Byte 11 takes the first three bits of the IV below its zeros. -/
theorem getElem_setup_eleven : (setup K V)[11] = V[0] >>> 5 := by
  refine BitVec.eq_of_getLsbD_eq fun j hj => ?_
  rw [getLsbD_setup K V _ hj, BitVec.getLsbD_ushiftRight]
  by_cases hiv : j < 3
  · rw [bitAt_setup, if_neg (by omega), if_pos (by omega)]
    exact (getLsbD_eq_bitAt V _ (by omega) (by omega)).symm
  · rw [bitAt_setup_gap K V (by omega), BitVec.getLsbD_of_ge _ _ (by omega)]

/-- A byte in the middle of the IV takes five bits of one IV byte and three of the next. -/
theorem getElem_setup_iv {i : Nat} (hi : i < 10) (hnext : i + 1 < 10) (hst : 12 + i < 36) :
    (setup K V)[12 + i] = (V[i] <<< 3) ||| (V[i + 1] >>> 5) := by
  refine BitVec.eq_of_getLsbD_eq fun j hj => ?_
  rw [getLsbD_setup K V hst hj, bitAt_setup, if_neg (by omega), if_pos (by omega), BitVec.getLsbD_or,
    getLsbD_shiftLeft_byte _ _ hj, BitVec.getLsbD_ushiftRight]
  by_cases hlow : j < 3
  · rw [if_pos hlow, Bool.false_or]
    exact (getLsbD_eq_bitAt V _ (by omega) (by omega)).symm
  · rw [if_neg hlow, BitVec.getLsbD_of_ge V[i + 1] _ (by omega), Bool.or_false]
    exact (getLsbD_eq_bitAt V _ (by omega) (by omega)).symm

/-- Byte 21 takes the last five bits of the IV above its zeros. -/
theorem getElem_setup_twentyone : (setup K V)[21] = V[9] <<< 3 := by
  refine BitVec.eq_of_getLsbD_eq fun j hj => ?_
  rw [getLsbD_setup K V _ hj, getLsbD_shiftLeft_byte _ _ hj]
  by_cases hzero : j < 3
  · rw [if_pos hzero, bitAt_setup_gap K V (by omega)]
  · rw [if_neg hzero, bitAt_setup, if_neg (by omega), if_pos (by omega)]
    exact (getLsbD_eq_bitAt V _ (by omega) (by omega)).symm

end

theorem getElem_setup_suffix (K V : Vector Byte 10) : (setup K V)[35] = 0x07#8 := by
  rw [setup, setupOver, Vector.getElem_set_self]

/-! ### SETUP -/

theorem tenBytes_eq {m : Memory} {K : Vector Byte 10} (h : TenBytesOf m K) : tenBytes m = K := by
  ext i hi : 1
  rw [tenBytes, Vector.getElem_ofFn, h i hi]

theorem keyIvSizeBad_of_ne {s : State} (h : s.klen ≠ 10#8 ∨ s.vlen ≠ 10#8) : s.keyIvSizeBad = true := by
  refine Bool.of_not_eq_false fun hok => ?_
  obtain ⟨hk, hv⟩ := keyIvSizeBad_eq_false.mp hok
  exact h.elim (· (BitVec.eq_of_toNat_eq hk)) (· (BitVec.eq_of_toNat_eq hv))

theorem exec_setup_of_size {s : State} (hf : s.flt = false) (h : s.klen ≠ 10#8 ∨ s.vlen ≠ 10#8) :
    exec .setup s = raise .size (encode .setup) s := by
  rw [exec, execSetup, unlessFaulted_of_not_flt hf, if_pos (keyIvSizeBad_of_ne h)]

/-! ### The obligations -/

/-- Settles O19: each byte is eight bits of the flat layout. -/
theorem setupByteForm : Obligations.SetupByteForm := fun K V =>
  ⟨fun _ hi => getElem_setup_key K V hi _, getElem_setup_zero K V _ (.inl rfl), getElem_setup_eleven K V,
    fun _ _ hnext hi hst => getElem_setup_iv K V hi hnext hst, getElem_setup_twentyone K V,
    fun _ hk hlo hhi => getElem_setup_zero K V hk (.inr ⟨hlo, hhi⟩), getElem_setup_suffix K V⟩

/-- Settles O20: each clause is one branch of `bitAt_setup`. -/
theorem setupBitLayout : Obligations.SetupBitLayout := fun K V =>
  ⟨fun _ _ => bitAt_setup_key K V (by omega), fun _ _ _ => bitAt_setup_gap K V (by omega),
    fun _ _ => bitAt_setup_iv K V (by omega), fun _ _ _ => bitAt_setup_gap K V (by omega),
    fun _ _ _ => bitAt_setup_suffix K V (by omega) (by omega)⟩

/-- Settles O21: all-ones key and IV reach every key and IV offset, the key and IV are read back from their offsets, and the
suffix is never 0. -/
theorem setupInvariants : Obligations.SetupInvariants := by
  refine ⟨fun i => ⟨fun ⟨K, V, h⟩ => ?_, fun h => ⟨Vector.replicate 10 0xFF#8, Vector.replicate 10 0xFF#8, ?_⟩⟩,
    fun K V i hlo hhi => bitAt_setup_suffix K V hlo (by omega), fun _ _ _ _ => setup_injective, fun K V h => ?_⟩
  · by_contra hout
    rw [bitAt_setup, if_neg (by omega), if_neg (by omega), decide_eq_false (by omega)] at h
    cases h
  · by_cases hsuffix : 285 ≤ i
    · exact bitAt_setup_suffix _ _ hsuffix (by omega)
    · exact bitAt_setup_ones (by omega)
  · have hone := bitAt_setup_suffix K V (Nat.le_refl 285) (by decide)
    rw [h] at hone
    exact absurd hone (by decide)

/-- Settles O22: the bits after the procedure do not name the register it ran over. -/
theorem setupForgetsTheOldRegister : Obligations.SetupForgetsTheOldRegister := fun b K V =>
  buffer_ext_bitAt fun i _ => by rw [bitAt_setupOver, bitAt_setup]

/-- Settles O23: a wrong length faults before KEY or IV is read, and `Completes.setup` gives the next state otherwise. -/
theorem setupCommand : Obligations.SetupCommand := by
  obtain ⟨-, -, -, -, hillegal, -⟩ := illegalWordsRaiseIllegalCmd
  refine ⟨fun s hf => ⟨exec_setup_of_size hf, fun K V hok hK hV => ?_⟩,
    fun s w rest ⟨hop, hmbz⟩ => hillegal s w rest ⟨by omega, by omega, hmbz⟩⟩
  rw [exec_setup_of_ok hf hok, State.keyBytes, State.ivBytes, tenBytes_eq hK, tenBytes_eq hV, State.setSt]

end Sys2Proof.Machine
end

section
/-!
SUPPORT. The Keystream Core by bit numbers: the rotation in bits and in bytes, the clock step and its inverse, the bits of a
keystream byte (43_keystream_core.md R100, R101, R103, R105, R106, R109).
-/

namespace Sys2Proof.Machine

/-! ### The rotation (43_keystream_core.md R101) -/

theorem bitAt_rot1 (b : St) {i : Nat} (hi : i < 288) : bitAt (rot1 b) i = if i = 0 then false else bitAt b (i - 1) := by
  rw [bitAt_of_lt _ hi, bitAt_of_lt b (show i - 1 < 8 * 36 by omega), getbit_rot1]

theorem getElem_rot1_zero (b : St) : (rot1 b)[0] = b[0] >>> 1 := by
  refine BitVec.eq_of_getLsbD_eq fun j hj => ?_
  rw [getLsbD_eq_bitAt (i := 7 - j) _ _ hj (by omega), bitAt_rot1 b (by omega), BitVec.getLsbD_ushiftRight]
  by_cases htop : j = 7
  · rw [if_pos (by omega), BitVec.getLsbD_of_ge _ _ (by omega)]
  · rw [if_neg (by omega)]
    exact (getLsbD_eq_bitAt b _ (by omega) (by omega)).symm

/-- The top bit of every later byte is the bottom bit of the byte before it. -/
theorem getElem_rot1 (b : St) {k : Nat} (hk : k < 36) (hp : k - 1 < 36) (hpos : 1 ≤ k) :
    (rot1 b)[k] = (b[k] >>> 1) ||| ((b[k - 1] &&& 0x01#8) <<< 7) := by
  refine BitVec.eq_of_getLsbD_eq fun j hj => ?_
  rw [getLsbD_eq_bitAt _ hk hj rfl, bitAt_rot1 b (by omega), if_neg (by omega), BitVec.getLsbD_or,
    BitVec.getLsbD_ushiftRight, getLsbD_shiftLeft_byte _ _ hj]
  by_cases htop : j < 7
  · rw [if_pos htop, Bool.or_false]
    exact (getLsbD_eq_bitAt b hk (by omega) (by omega)).symm
  · have hbottom : (b[k - 1] &&& 0x01#8).getLsbD (j - 7) = (b[k - 1]).getLsbD 0 := by simp [show j = 7 by omega]
    rw [if_neg htop, BitVec.getLsbD_of_ge _ _ (by omega), Bool.false_or, hbottom]
    exact (getLsbD_eq_bitAt b hp (by decide) (by omega)).symm

theorem bitAt_iterate_rot1 (b : St) (n : Nat) {i : Nat} (hi : i < 288) :
    bitAt (rot1^[n] b) i = if i < n then false else bitAt b (i - n) := by
  induction n generalizing i with
  | zero => simp
  | succ n ih =>
    rw [Function.iterate_succ_apply', bitAt_rot1 _ hi]
    by_cases hfirst : i = 0
    · rw [if_pos hfirst, if_pos (by omega)]
    · rw [if_neg hfirst, ih (by omega)]
      exact if_congr (by omega) rfl (congrArg (bitAt b) (by omega))

theorem bitAt_zeroSt {i : Nat} (hi : i < 288) : bitAt zeroSt i = false := by
  rw [zeroSt, bitAt_replicate _ hi, BitVec.getLsbD_zero]

theorem iterate_rot1_eq_zeroSt (b : St) : rot1^[288] b = zeroSt :=
  buffer_ext_bitAt fun i hi => by rw [bitAt_iterate_rot1 b 288 hi, if_pos hi, bitAt_zeroSt hi]

/-! ### The tap network and the clock step (43_keystream_core.md R100, R105) -/

section
variable (b : St)

theorem taps_z :
    (taps b).z = (bitAt b 65 ^^ bitAt b 92 ^^ bitAt b 161 ^^ bitAt b 176 ^^ bitAt b 242 ^^ bitAt b 287) := by
  have hsums : (taps b).z =
      ((bitAt b 65 ^^ bitAt b 92) ^^ (bitAt b 161 ^^ bitAt b 176) ^^ (bitAt b 242 ^^ bitAt b 287)) := rfl
  rw [hsums]
  simp only [Bool.xor_assoc]

theorem taps_f1 : (taps b).f1 = (bitAt b 65 ^^ bitAt b 92 ^^ (bitAt b 90 && bitAt b 91) ^^ bitAt b 170) := rfl

theorem taps_f2 : (taps b).f2 = (bitAt b 161 ^^ bitAt b 176 ^^ (bitAt b 174 && bitAt b 175) ^^ bitAt b 263) := rfl

theorem taps_f3 : (taps b).f3 = (bitAt b 242 ^^ bitAt b 287 ^^ (bitAt b 285 && bitAt b 286) ^^ bitAt b 68) := rfl

theorem bitAt_clock {i : Nat} (hi : i < 288) :
    bitAt (clock b).2 i =
      if i = 177 then (taps b).f2
      else if i = 93 then (taps b).f1
      else if i = 0 then (taps b).f3
      else bitAt b (i - 1) := by
  rw [bitAt_of_lt _ hi, bitAt_of_lt b (show i - 1 < 8 * 36 by omega), getbit_clock]

theorem bitAt_clock_succ (i : Nat) (hi : i < 287 ∧ i ≠ 92 ∧ i ≠ 176 := by decide) :
    bitAt (clock b).2 (i + 1) = bitAt b i := by
  rw [bitAt_clock b (by omega), if_neg (by omega), if_neg (by omega), if_neg (by omega), Nat.add_sub_cancel]

theorem bitAt_clock_zero :
    bitAt (clock b).2 0 = (bitAt b 242 ^^ bitAt b 287 ^^ (bitAt b 285 && bitAt b 286) ^^ bitAt b 68) :=
  (bitAt_clock b (by decide)).trans (taps_f3 b)

theorem bitAt_clock_93 :
    bitAt (clock b).2 93 = (bitAt b 65 ^^ bitAt b 92 ^^ (bitAt b 90 && bitAt b 91) ^^ bitAt b 170) :=
  (bitAt_clock b (by decide)).trans (taps_f1 b)

theorem bitAt_clock_177 :
    bitAt (clock b).2 177 = (bitAt b 161 ^^ bitAt b 176 ^^ (bitAt b 174 && bitAt b 175) ^^ bitAt b 263) :=
  (bitAt_clock b (by decide)).trans (taps_f2 b)

end

/-! ### The inverse of the clock step (43_keystream_core.md R109) -/

/-- The second term of a feedback sum, from the sum and the other terms. -/
theorem eq_xor_of_feedback : ∀ x y p q : Bool, y = ((x ^^ y ^^ p ^^ q) ^^ x ^^ p ^^ q) := by decide

section
variable (b : St)

theorem bitAt_92_of_clock :
    bitAt b 92 = (bitAt (clock b).2 93 ^^ bitAt (clock b).2 66 ^^
      (bitAt (clock b).2 91 && bitAt (clock b).2 92) ^^ bitAt (clock b).2 171) := by
  rw [bitAt_clock_93, bitAt_clock_succ b 65, bitAt_clock_succ b 90, bitAt_clock_succ b 91,
    bitAt_clock_succ b 170]
  exact eq_xor_of_feedback _ _ _ _

theorem bitAt_176_of_clock :
    bitAt b 176 = (bitAt (clock b).2 177 ^^ bitAt (clock b).2 162 ^^
      (bitAt (clock b).2 175 && bitAt (clock b).2 176) ^^ bitAt (clock b).2 264) := by
  rw [bitAt_clock_177, bitAt_clock_succ b 161, bitAt_clock_succ b 174, bitAt_clock_succ b 175,
    bitAt_clock_succ b 263]
  exact eq_xor_of_feedback _ _ _ _

theorem bitAt_287_of_clock :
    bitAt b 287 = (bitAt (clock b).2 0 ^^ bitAt (clock b).2 243 ^^
      (bitAt (clock b).2 286 && bitAt (clock b).2 287) ^^ bitAt (clock b).2 69) := by
  rw [bitAt_clock_zero, bitAt_clock_succ b 242, bitAt_clock_succ b 285, bitAt_clock_succ b 286,
    bitAt_clock_succ b 68]
  exact eq_xor_of_feedback _ _ _ _

end

theorem clock_injective : Function.Injective fun b : St => (clock b).2 := by
  intro b c h
  have h : (clock b).2 = (clock c).2 := h
  refine buffer_ext_bitAt fun i hi => ?_
  obtain rfl | rfl | rfl | hmoved : i = 92 ∨ i = 176 ∨ i = 287 ∨ (i < 287 ∧ i ≠ 92 ∧ i ≠ 176) := by omega
  · rw [bitAt_92_of_clock b, h, ← bitAt_92_of_clock c]
  · rw [bitAt_176_of_clock b, h, ← bitAt_176_of_clock c]
  · rw [bitAt_287_of_clock b, h, ← bitAt_287_of_clock c]
  · rw [← bitAt_clock_succ b i hmoved, h, bitAt_clock_succ c i hmoved]

/-- There are finitely many registers, a register being determined by its 288 bits. -/
theorem finite_st : Finite St :=
  Finite.of_injective (fun (b : St) (i : Fin 288) => bitAt b i.val) fun _ _ h =>
    buffer_ext_bitAt fun i hi => congrFun h ⟨i, hi⟩

theorem clock_bijective : Function.Bijective fun b : St => (clock b).2 :=
  have := finite_st
  Finite.injective_iff_bijective.mp clock_injective

theorem clock_zeroSt : clock zeroSt = (false, zeroSt) := by
  have htaps : taps zeroSt = ⟨false, false, false, false, false, false, false⟩ := by decide
  refine Prod.ext (congrArg Taps.z htaps) (buffer_ext_bitAt fun i hi => ?_)
  rw [bitAt_clock zeroSt hi, htaps, bitAt_zeroSt hi, bitAt_zeroSt (show i - 1 < 288 by omega)]
  simp only [ite_self]

/-- Only the all-zero register is clocked to the all-zero one, since the step is injective and fixes it. -/
theorem eq_zeroSt_of_iterateClock {n : Nat} {b : St} (h : iterateClock n b = zeroSt) : b = zeroSt := by
  induction n generalizing b with
  | zero => exact h
  | succ n ih => exact clock_injective ((ih h).trans (congrArg Prod.snd clock_zeroSt).symm)

/-! ### The bits of a keystream byte (43_keystream_core.md R106) -/

/-- The accumulator after a bit is shifted in at the bottom. -/
theorem getLsbD_pushBit (acc : Byte) (v : Bool) {i : Nat} (hi : i < 8) :
    ((acc <<< 1) ||| zext8 v).getLsbD i = if i = 0 then v else acc.getLsbD (i - 1) := by
  have hbit : (zext8 v).getLsbD i = (v && decide (i = 0)) := by
    cases v <;> simp [zext8, BitVec.getLsbD_one]
  rw [BitVec.getLsbD_or, getLsbD_shiftLeft_byte _ _ hi, hbit]
  by_cases hbottom : i = 0 <;> simp [hbottom]

/-- The last `n` bits shifted in are the emitted ones, the first clock's the highest; above them stands the accumulator. -/
theorem getLsbD_ksbyteFrom (acc : Byte) (b : St) (n : Nat) {i : Nat} (hi : i < 8) :
    (ksbyteFrom acc b n).1.getLsbD i =
      if i < n then (clock (iterateClock (n - 1 - i) b)).1 else acc.getLsbD (i - n) := by
  induction n generalizing acc b with
  | zero => rfl
  | succ n ih =>
    rw [ksbyteFrom, ih]
    obtain hlater | hfirst | habove : i < n ∨ i = n ∨ n + 1 ≤ i := by omega
    · rw [if_pos hlater, if_pos (by omega), show n + 1 - 1 - i = n - 1 - i + 1 by omega, iterateClock]
    · rw [if_neg (by omega), if_pos (by omega), getLsbD_pushBit _ _ (by omega), if_pos (by omega),
        show n + 1 - 1 - i = 0 by omega, iterateClock]
    · rw [if_neg (by omega), if_neg (by omega), getLsbD_pushBit _ _ (by omega), if_neg (by omega), Nat.sub_sub]

/-- Bit `7 − j` of the keystream byte is the bit emitted by clock `j + 1`. -/
theorem getLsbD_ksbyte (b : St) {j : Nat} (hj : j < 8) :
    (ksbyte b).1.getLsbD (7 - j) = (clock (iterateClock j b)).1 := by
  have hbits := getLsbD_ksbyteFrom 0x00#8 b 8 (show 7 - j < 8 by omega)
  rwa [if_pos (by omega), show 8 - 1 - (7 - j) = j by omega] at hbits

theorem ksbyte_snd (b : St) : (ksbyte b).2 = iterateClock 8 b := ksbyteFrom_snd _ b 8

end Sys2Proof.Machine
end

section
/-!
SUPPORT. The commands of the Keystream Core with SV = 0, and a run of equal words issued; and the statements of
43_keystream_core.md, settled.
-/

namespace Sys2Proof.Machine

/-! ### The commands that only need a state -/

theorem exec_of_not_sv {i : Instr} (hi : i = .rot1 ∨ i = .clock ∨ i = .ksbyte ∨ i = .warmup) {s : State}
    (hf : s.flt = false) (hsv : s.sv = false) : exec i s = raise .stateInvalid (encode i) s := by
  obtain rfl | rfl | rfl | rfl := hi <;> exact (unlessFaulted_of_not_flt hf _).trans (onState_of_not_sv hsv _ _)

/-- The word class of 30_encoding.md R54 for one command of format N. -/
theorem illegalWhen_of_formatN {op : Nat} (hlo : 5 ≤ op) (hhi : op ≤ 11) :
    IllegalWhen fun w => opcodeOf w = op ∧ w.toNat % 4096 ≠ 0 := by
  obtain ⟨-, -, -, -, hillegal, -⟩ := illegalWordsRaiseIllegalCmd
  exact fun s w rest ⟨hop, hmbz⟩ => hillegal s w rest ⟨by omega, by omega, hmbz⟩

/-! ### Equal words in a row -/

theorem runSteps_of_step {s t : State} (h : step s = .next t) (n : Nat) : runSteps (n + 1) s = runSteps n t := by
  rw [runSteps, h]

/-- The word of a command that completes, issued. -/
theorem step_of_completes {i : Instr} {s t : State} {rest : List HostAction} (hs : s.host = .issue (encode i) :: rest)
    (hf : s.flt = false) (h : Completes (s.setHost rest) i t) : step s = .next t := by
  rw [step_issue hs, issueWord_ok (decode_encode i), h.exec_eq hf]

theorem runSteps_rot1 {n : Nat} {s : State} {b : St} {rest : List HostAction} (hf : s.flt = false) (hb : s.st = some b)
    (hs : s.host = List.replicate n (.issue 0x6000#16) ++ rest) :
    runSteps n s = .next { s with host := rest, st := some (rot1^[n] b) } := by
  induction n generalizing s b with
  | zero =>
    obtain rfl : s.host = rest := hs
    rw [Function.iterate_zero, id, ← hb]
    rfl
  | succ n ih =>
    have hstep := step_of_completes (i := .rot1) (rest := List.replicate n (.issue 0x6000#16) ++ rest) hs hf (.rot1 hb)
    rw [runSteps_of_step hstep]
    exact ih hf rfl rfl

/-- RES holds the bit emitted by the last of the clocks. -/
theorem runSteps_clock {n : Nat} {s : State} {b : St} {rest : List HostAction} (hf : s.flt = false) (hb : s.st = some b)
    (hs : s.host = List.replicate (n + 1) (.issue 0x7000#16) ++ rest) :
    runSteps (n + 1) s =
      .next { s with
        host := rest, st := some (iterateClock (n + 1) b), res := zext8 (clock (iterateClock n b)).1 } := by
  induction n generalizing s b with
  | zero => exact runSteps_of_step (step_of_completes (i := .clock) (rest := rest) hs hf (.clock hb)) 0
  | succ n ih =>
    have hstep := step_of_completes (i := .clock) (rest := List.replicate (n + 1) (.issue 0x7000#16) ++ rest) hs hf
      (.clock hb)
    rw [runSteps_of_step hstep]
    exact ih hf rfl rfl

/-! ### The obligations -/

/-- Settles O24: the seven values are the definition's, the emitted bit with its sums associated to the left. -/
theorem tapNetwork : Obligations.TapNetwork := fun b =>
  ⟨_, _, _, _, _, _, _, rfl, rfl, rfl, rfl, taps_z b, taps_f1 b, taps_f2 b, taps_f3 b⟩

/-- Settles O25: `bitAt_rot1` gives the bits, and each byte is eight of them. -/
theorem rotationMovesEveryBitUp : Obligations.RotationMovesEveryBitUp := by
  refine fun b => ⟨?_, fun i hlo hhi => ?_, getElem_rot1_zero b, fun k hk hp => getElem_rot1 b hk hp⟩
  · rw [bitAt_rot1 b (by decide), if_pos rfl]
  · rw [bitAt_rot1 b (by omega), if_neg (by omega)]

/-- Settles O26: after 288 rotations every offset has taken a zero that entered at offset 0. -/
theorem rotationCommand : Obligations.RotationCommand := by
  refine ⟨fun s hf => ⟨exec_of_not_sv (.inl rfl) hf, fun b hb => ⟨rot1 b, (Completes.rot1 hb).exec_eq hf, ?_⟩⟩,
    fun s b hf hb hs => ?_, illegalWhen_of_formatN (by decide) (by decide)⟩
  · obtain ⟨hzero, hup, -⟩ := rotationMovesEveryBitUp b
    exact ⟨hzero, hup⟩
  · rw [runSteps_rot1 hf hb (hs.trans (List.append_nil _).symm), iterate_rot1_eq_zeroSt]

/-- Settles O27: the clauses are the branches of `bitAt_clock`. -/
theorem clockInFlatOffsets : Obligations.ClockInFlatOffsets := by
  refine fun b => ⟨taps_z b, bitAt_clock_zero b, bitAt_clock_93 b, bitAt_clock_177 b, fun i hlo hhi h93 h177 => ?_⟩
  rw [bitAt_clock b (by omega), if_neg h177, if_neg h93, if_neg (by omega)]

/-- Settles O28: a completed CLOCK writes ST and RES only. -/
theorem clockCommand : Obligations.ClockCommand :=
  ⟨fun _ hf => ⟨exec_of_not_sv (.inr (.inl rfl)) hf, fun _ hb => (Completes.clock hb).exec_eq hf⟩,
    illegalWhen_of_formatN (by decide) (by decide)⟩

/-- Settles O29: a feedback sum gives back its overwritten term, so the step is injective on finitely many registers, and
`setup` never yields the all-zero one. -/
theorem clockIsInvertible : Obligations.ClockIsInvertible := by
  obtain ⟨-, -, -, hsetup⟩ := setupInvariants
  refine ⟨fun b => ⟨fun i hlo hhi h93 h177 => ?_, bitAt_92_of_clock b, bitAt_176_of_clock b, bitAt_287_of_clock b⟩,
    clock_bijective, clock_zeroSt, fun K V n h => hsetup K V (eq_zeroSt_of_iterateClock h)⟩
  obtain ⟨-, -, -, -, hup⟩ := clockInFlatOffsets b
  exact (hup i hlo hhi h93 h177).symm

/-- Settles O30: a byte is the sum of its weighted bits, and those are the emitted ones. -/
theorem keystreamByteAssembly : Obligations.KeystreamByteAssembly := by
  refine fun b => ⟨?_, ksbyte_snd b⟩
  rw [toNat_eq_sum_weighted_bits]
  refine congrArg List.sum (List.map_congr_left fun j hj => ?_)
  rw [getLsbD_ksbyte b (List.mem_range.mp hj)]

/-- Settles O31: the CLOCK words run the clocks the keystream byte is made of. -/
theorem keystreamByteCommand : Obligations.KeystreamByteCommand := by
  refine ⟨fun s hf => ⟨exec_of_not_sv (.inr (.inr (.inl rfl))) hf, fun b hb => (Completes.ksbyte hb).exec_eq hf⟩,
    fun s u j hf hs hsv hu hj => ?_, illegalWhen_of_formatN (by decide) (by decide)⟩
  obtain ⟨b, hb⟩ := Option.isSome_iff_exists.mp hsv
  rw [(Completes.ksbyte hb).exec_eq hf] at hu
  cases hu
  have hsplit : s.host = List.replicate (j + 1) (.issue 0x7000#16) ++ List.replicate (7 - j) (.issue 0x7000#16) := by
    rw [hs, List.replicate_append_replicate, show j + 1 + (7 - j) = 8 by omega]
  refine ⟨_, runSteps_clock hf hb hsplit, ?_, ?_⟩
  · rw [State.setRes_res, getLsbD_ksbyte b hj]
    rfl
  · rintro rfl
    rw [State.setRes_st, State.setSt_st, ksbyte_snd]

end Sys2Proof.Machine
end

section
/-!
DEFINITION. The keystream byte a CIPHER command uses at one index of its input (44_cipher_driver.md R123). `xorStage_fst`,
`runProgram_ksbyte` and `read_writeBytes_cipherBytes` tie the two to the model.
-/

namespace Sys2Proof.Machine

/-- Keystream byte `idx` counted from the register `b`: the byte of clocks 8 idx + 1 to 8 idx + 8. -/
def keystreamByte (b : St) (idx : Nat) : Byte := (ksbyte (iterateClock (8 * idx) b)).1

/-- Keystream byte `idx` of a CIPHER command on the host's key and IV, counted from the end of the warm-up. -/
def State.cipherKeystream (s : State) (idx : Nat) : Byte :=
  keystreamByte (warmup (setup (order s.cfg.kivRev s.keyBytes) (order s.cfg.kivRev s.ivBytes))) idx

end Sys2Proof.Machine
end

section
/-!
SUPPORT. The Cipher Driver's function: the XOR stage and `cipher` byte by byte (44_cipher_driver.md R123, R124), the bytes a CIPHER
command takes and writes, and the byte order (R120).
-/

namespace Sys2Proof.Machine

/-! ### The key and IV byte order -/

theorem order_false (X : Vector Byte 10) : order false X = X := rfl

theorem getElem_order_true (X : Vector Byte 10) {i : Nat} (h : i < 10) : (order true X)[i] = X[9 - i] := by
  simp [order]

/-! ### The XOR stage -/

theorem xor_xor_cancel_byte (x y : Byte) : x ^^^ y ^^^ y = x := by
  rw [BitVec.xor_assoc, BitVec.xor_self, BitVec.xor_zero]

/-- Two bytes under one keystream byte differ as they did before. -/
theorem xor_xor_xor_cancel_byte (x y k : Byte) : (x ^^^ k) ^^^ (y ^^^ k) = x ^^^ y := by
  rw [BitVec.xor_comm y k, ← BitVec.xor_assoc, xor_xor_cancel_byte]

theorem keystreamByte_zero (b : St) : keystreamByte b 0 = (ksbyte b).1 := rfl

theorem keystreamByte_ksbyte (b : St) (idx : Nat) : keystreamByte (ksbyte b).2 idx = keystreamByte b (idx + 1) := by
  rw [keystreamByte, keystreamByte, ksbyte_snd, ← iterateClock_add, show 8 + 8 * idx = 8 * (idx + 1) by omega]

/-- Bit `7 − j` of keystream byte `idx` is the bit emitted by clock `8 idx + j + 1`. -/
theorem getLsbD_keystreamByte (b : St) (idx : Nat) {j : Nat} (hj : j < 8) :
    (keystreamByte b idx).getLsbD (7 - j) = (clock (iterateClock (8 * idx + j) b)).1 := by
  rw [keystreamByte, getLsbD_ksbyte _ hj, iterateClock_add]

theorem xorStage_cons (m : Byte) (M : List Byte) (b : St) :
    xorStage (m :: M) b = ((m ^^^ (ksbyte b).1) :: (xorStage M (ksbyte b).2).1, (xorStage M (ksbyte b).2).2) := rfl

theorem xorStage_fst (M : List Byte) (b : St) : (xorStage M b).1 = M.mapIdx fun i m => m ^^^ keystreamByte b i := by
  induction M generalizing b with
  | nil => rfl
  | cons m M ih => simp only [xorStage_cons, ih, List.mapIdx_cons, keystreamByte_ksbyte, keystreamByte_zero]

theorem xorStage_snd (M : List Byte) (b : St) : (xorStage M b).2 = iterateClock (8 * M.length) b := by
  induction M generalizing b with
  | nil => rfl
  | cons m M ih =>
    rw [xorStage_cons, ih, ksbyte_snd, ← iterateClock_add, List.length_cons,
      show 8 + 8 * M.length = 8 * (M.length + 1) by omega]

/-! ### The function `cipher` -/

section
variable (rev : Bool) (K V : Vector Byte 10) (M : List Byte)

theorem length_cipher : (cipher rev K V M).1.length = M.length := length_xorStage _ _

theorem cipher_fst :
    (cipher rev K V M).1 =
      M.mapIdx fun i m => m ^^^ keystreamByte (warmup (setup (order rev K) (order rev V))) i := xorStage_fst M _

theorem getElem_cipher {i : Nat} (h : i < (cipher rev K V M).1.length) :
    (cipher rev K V M).1[i] =
      M[i]'(length_cipher rev K V M ▸ h) ^^^ keystreamByte (warmup (setup (order rev K) (order rev V))) i := by
  simp only [cipher_fst, List.getElem_mapIdx]

theorem cipher_snd :
    (cipher rev K V M).2 = iterateClock (1152 + 8 * M.length) (setup (order rev K) (order rev V)) := by
  rw [cipher, xorStage_snd, warmup, ← iterateClock_add]

theorem cipher_cipher : (cipher rev K V (cipher rev K V M).1).1 = M := by
  refine List.ext_getElem (by rw [length_cipher, length_cipher]) fun i _ _ => ?_
  rw [getElem_cipher, getElem_cipher, xor_xor_cancel_byte]

/-- The keystream is the ciphertext of zeros. -/
theorem cipher_eq_zipWith_zeros :
    (cipher rev K V M).1 = List.zipWith (· ^^^ ·) M (cipher rev K V (List.replicate M.length 0x00#8)).1 := by
  refine List.ext_getElem (by simp [length_cipher]) fun i _ _ => ?_
  rw [List.getElem_zipWith, getElem_cipher, getElem_cipher, List.getElem_replicate, BitVec.zero_xor]

theorem cipher_take (n : Nat) : (cipher rev K V (M.take n)).1 = (cipher rev K V M).1.take n := by
  refine List.ext_getElem (by simp [length_cipher]) fun i _ _ => ?_
  rw [List.getElem_take, getElem_cipher, getElem_cipher, List.getElem_take]

theorem zipWith_cipher_cipher (M' : List Byte) :
    List.zipWith (· ^^^ ·) (cipher rev K V M).1 (cipher rev K V M').1 = List.zipWith (· ^^^ ·) M M' := by
  refine List.ext_getElem (by simp [length_cipher]) fun i _ _ => ?_
  rw [List.getElem_zipWith, List.getElem_zipWith, getElem_cipher, getElem_cipher, xor_xor_xor_cancel_byte]

end

/-! ### The bytes of a CIPHER command -/

theorem inBytes_eq {s : State} {M : List Byte} (h : BytesOf s.inBuf s.len.toNat M) : s.inBytes = M := by
  obtain ⟨hlen, hbytes⟩ := h
  refine List.ext_getElem ((Memory.length_readBytes _ _ _).trans hlen.symm) fun i _ hi => ?_
  rw [hbytes i hi]
  exact (Memory.getElem_readBytes _ _ _ _ _).trans (congrArg s.inBuf.read (Nat.zero_add i))

theorem cipherBytes_eq {s : State} {K V : Vector Byte 10} {M : List Byte} (hK : TenBytesOf s.keyBuf K)
    (hV : TenBytesOf s.ivBuf V) (hM : BytesOf s.inBuf s.len.toNat M) :
    s.cipherBytes = (cipher s.cfg.kivRev K V M).1 := by
  rw [State.cipherBytes, State.keyBytes, State.ivBytes, tenBytes_eq hK, tenBytes_eq hV, inBytes_eq hM]

theorem getElem_cipherBytes (s : State) {i : Nat} (h : i < s.cipherBytes.length) :
    s.cipherBytes[i] = s.inBuf.read i ^^^ s.cipherKeystream i := by
  simp only [State.cipherBytes, getElem_cipher, State.inBytes, Memory.getElem_readBytes, Nat.zero_add,
    State.cipherKeystream]

section
variable {m : Memory} (hm : m.wf) (s : State)
include hm

theorem read_writeBytes_cipherBytes (a : Nat) :
    (m.writeBytes 0 s.cipherBytes).read a =
      if a < s.len.toNat then s.inBuf.read a ^^^ s.cipherKeystream a else m.read a := by
  have hlen := length_cipherBytes s
  rw [Memory.read_writeBytes hm]
  by_cases ha : a < s.len.toNat
  · rw [dif_pos (by omega), if_pos ha, getElem_cipherBytes, Nat.sub_zero]
  · rw [dif_neg (by omega), if_neg ha]

theorem bytesOf_writeBytes_cipherBytes : BytesOf (m.writeBytes 0 s.cipherBytes) s.len.toNat s.cipherBytes :=
  length_cipherBytes s ▸ bytesOf_writeBytes hm s.cipherBytes

theorem read_writeBytes_cipherBytes_of_le {a : Nat} (h : s.len.toNat ≤ a) :
    (m.writeBytes 0 s.cipherBytes).read a = m.read a := by
  rw [read_writeBytes_cipherBytes hm, if_neg (by omega)]

end

/-- A second result under the same keystream, written over the first, restores the space. -/
theorem writeBytes_cipherBytes_cancel {s t : State} (hwf : s.inBuf.wf) (hlen : t.len = s.len)
    (hks : t.cipherKeystream = s.cipherKeystream) (ht : t.inBuf = s.inBuf.writeBytes 0 s.cipherBytes) :
    t.inBuf.writeBytes 0 t.cipherBytes = s.inBuf := by
  have hwf' : t.inBuf.wf := ht ▸ Memory.wf_writeBytes hwf 0 s.cipherBytes
  refine Memory.ext_read (Memory.wf_writeBytes hwf' _ _) hwf fun a => ?_
  rw [read_writeBytes_cipherBytes hwf', ht, read_writeBytes_cipherBytes hwf, hlen, hks]
  by_cases ha : a < s.len.toNat
  · rw [if_pos ha, if_pos ha, xor_xor_cancel_byte]
  · rw [if_neg ha, if_neg ha]

end Sys2Proof.Machine
end

section
/-!
SUPPORT. The commands of the Cipher Driver with illegal lengths, what a completed CIPHER.CP leaves to read, and the run of SETUP,
WARMUP and KSBYTE words; and the statements of 44_cipher_driver.md, settled.
-/

namespace Sys2Proof.Machine

/-! ### The CIPHER commands -/

theorem cipherSizeBad_of_illegal {s : State}
    (h : s.klen ≠ 10#8 ∨ s.vlen ≠ 10#8 ∨ s.len = 0#16 ∨ s.cfg.bufmax < s.len.toNat) : s.cipherSizeBad = true := by
  refine Bool.of_not_eq_false fun hok => ?_
  obtain ⟨⟨hk, hv⟩, hpos, hle⟩ := cipherSizeOk_of_not_bad hok
  obtain hk' | hv' | hzero | hlt := h
  · exact hk' hk
  · exact hv' hv
  · simp [hzero] at hpos
  · omega

section
variable {s : State} (hf : s.flt = false)
include hf

theorem exec_cipherIp_of_size (h : s.cipherSizeBad = true) : exec .cipherIp s = raise .size (encode .cipherIp) s := by
  rw [exec, execCipherIp, unlessFaulted_of_not_flt hf, if_pos h]

theorem exec_cipherCp_of_size (h : s.cipherSizeBad = true) : exec .cipherCp s = raise .size (encode .cipherCp) s := by
  rw [exec, execCipherCp, unlessFaulted_of_not_flt hf, if_pos h]

/-- What the host reads after CIPHER.CP: its input under the keystream. -/
theorem readOut_of_exec_cipherCp {t : State} {idx : Nat} (hok : s.cipherSizeOk) (hout : s.outBuf.wf)
    (h : exec .cipherCp s = .next t) (hidx : idx < s.len.toNat) :
    t.readOut idx = some (s.inBuf.read idx ^^^ s.cipherKeystream idx) := by
  rw [exec_cipherCp_of_ok hf hok] at h
  cases h
  rw [readOut_of_lt hidx, State.discardSt_outBuf, State.setOut_outBuf, read_writeBytes_cipherBytes hout, if_pos hidx]

/-- A command with legal operands that does not build its own state needs one (60_exceptions.md R141). -/
theorem exec_of_wf_of_not_sv {i : Instr} (hsv : s.sv = false) (hwf : i.wf = true)
    (hi : i ∉ [Instr.setup, .cipherIp, .cipherCp]) : exec i s = raise .stateInvalid (encode i) s := by
  cases i with
  | getbit off => exact exec_getbit_of_not_sv hf (by simpa [Instr.wf, Nat.lt_succ_iff] using hwf) hsv
  | putbit off v => exact exec_putbit_of_not_sv hf v (by simpa [Instr.wf, Nat.lt_succ_iff] using hwf) hsv
  | xwf k n => exact exec_xwf_of_not_sv hf ((xwf_wf_iff k n).mp hwf) hsv
  | xwb k n => exact exec_xwb_of_not_sv hf ((xwb_wf_iff k n).mp hwf) hsv
  | rot1 | clock | ksbyte | warmup => exact exec_of_not_sv (by simp) hf hsv
  | setup | cipherIp | cipherCp => exact absurd hi (by simp)

end

/-! ### The driver's parts, issued one by one (44_cipher_driver.md R130) -/

/-- A run goes on from where a completed command leads. -/
theorem runProgram_of_completes {i : Instr} {s t : State} {rest : List HostAction}
    (hs : s.host = .issue (encode i) :: rest) (hf : s.flt = false) (h : Completes (s.setHost rest) i t) (n : Nat) :
    runProgram (n + 1) s = runProgram n t :=
  runProgram_next hf (by rw [State.abandonsNext, hs]) (step_of_completes hs hf h) n

/-- RES holds the last of the keystream bytes. -/
theorem runProgram_ksbyte {n : Nat} {s : State} {b : St} (hf : s.flt = false) (hb : s.st = some b)
    (hs : s.host = List.replicate (n + 1) (.issue 0x8000#16)) :
    ∃ t, runProgram (n + 1) s = .completed t ∧ t.sv = true ∧ t.res = keystreamByte b n := by
  induction n generalizing s b with
  | zero =>
    exact ⟨_, (runProgram_of_completes (i := .ksbyte) hs hf (.ksbyte hb) 0).trans (runProgram_zero hf), rfl, rfl⟩
  | succ n ih =>
    rw [runProgram_of_completes (i := .ksbyte) hs hf (.ksbyte hb), ← keystreamByte_ksbyte]
    exact ih hf rfl rfl

theorem runProgram_warmup_ksbyte {n : Nat} {s : State} {b : St} (hf : s.flt = false) (hb : s.st = some b)
    (hs : s.host = .issue 0x9000#16 :: List.replicate (n + 1) (.issue 0x8000#16)) :
    ∃ t, runProgram (n + 2) s = .completed t ∧ t.sv = true ∧ t.res = keystreamByte (warmup b) n := by
  rw [runProgram_of_completes (i := .warmup) hs hf (.warmup hb)]
  exact runProgram_ksbyte hf rfl rfl

/-- SETUP, WARMUP and `n + 1` times KSBYTE: `SV` stays 1, and RES holds keystream byte `n` after the warm-up. -/
theorem runProgram_setup_warmup_ksbyte {n : Nat} {s : State} (hf : s.flt = false) (hok : s.keyIvSizeOk)
    (hs : s.host = .issue 0x5000#16 :: .issue 0x9000#16 :: List.replicate (n + 1) (.issue 0x8000#16)) :
    ∃ t, runProgram (n + 3) s = .completed t ∧ t.sv = true ∧
      t.res = keystreamByte (warmup (setup s.keyBytes s.ivBytes)) n := by
  rw [runProgram_of_completes (i := .setup) hs hf (.setup (keyIvSizeBad_of_ok hok))]
  exact runProgram_warmup_ksbyte hf rfl rfl

/-! ### The obligations -/

/-- Settles O32: `cipher` under AS_GIVEN of reversed bytes builds the same state, and SETUP reads the ten bytes as they stand. -/
theorem keyIvByteOrder : Obligations.KeyIvByteOrder := by
  refine fun X => ⟨order_false X, fun i h _ => getElem_order_true X h, fun K V M => ?_, fun s K V hf hok hK hV => ?_⟩
  · rw [cipher, cipher, order_false, order_false]
  · refine ⟨_, exec_setup_of_ok hf hok, ?_⟩
    rw [State.setSt_st, State.keyBytes, State.ivBytes, tenBytes_eq hK, tenBytes_eq hV]

/-- Settles O33: the CLOCK words run the clocks of the warm-up and leave the last emitted bit in RES. -/
theorem warmupCommand : Obligations.WarmupCommand := by
  refine ⟨fun s hf => ⟨exec_of_not_sv (.inr (.inr (.inr rfl))) hf, fun b hb => (Completes.warmup hb).exec_eq hf⟩,
    fun s hf hsv hs => ?_, illegalWhen_of_formatN (by decide) (by decide)⟩
  obtain ⟨b, hb⟩ := Option.isSome_iff_exists.mp hsv
  exact ⟨_, _, (Completes.warmup (s := s.setHost []) hb).exec_eq hf,
    runSteps_clock hf hb (hs.trans (List.append_nil _).symm)⟩

/-- Settles O34: byte `idx` is XORed with keystream byte `idx` after the warm-up, whose bits are the emitted ones. -/
theorem cipherIsXorWithKeystream : Obligations.CipherIsXorWithKeystream := by
  refine fun rev K V M => ⟨length_cipher rev K V M, fun idx j m c hm hc hj => ?_, cipher_snd rev K V M⟩
  obtain ⟨hidx, rfl⟩ := List.getElem?_eq_some_iff.mp hc
  obtain ⟨_, rfl⟩ := List.getElem?_eq_some_iff.mp hm
  rw [getElem_cipher, BitVec.getLsbD_xor, getLsbD_keystreamByte _ _ hj, warmup, ← iterateClock_add, Nat.add_assoc]

/-- Settles O35: all but determinism are the XOR with one keystream, byte by byte; and `cipherBytes_eq` names all that a CIPHER
command reads. -/
theorem cipherProperties : Obligations.CipherProperties := by
  refine ⟨fun rev K V M => ⟨cipher_cipher rev K V M, cipher_eq_zipWith_zeros rev K V M, cipher_take rev K V M⟩,
    fun rev K V M1 M2 _ => zipWith_cipher_cipher rev K V M1 M2, fun s t K V M hrev hK hK' hV hV' hM hM' => ?_⟩
  rw [cipherBytes_eq hK hV hM, cipherBytes_eq hK' hV' hM', hrev]

/-- Settles O36: the lengths are checked first, and the result is a run of bytes written to IN from index 0. -/
theorem cipherInPlaceCommand : Obligations.CipherInPlaceCommand := by
  refine ⟨fun s hf => ⟨fun hbad => exec_cipherIp_of_size hf (cipherSizeBad_of_illegal hbad),
    fun K V M hok hwf hK hV hM => ?_⟩, illegalWhen_of_formatN (by decide) (by decide)⟩
  rw [← cipherBytes_eq hK hV hM]
  exact ⟨_, exec_cipherIp_of_ok hf hok, bytesOf_writeBytes_cipherBytes hwf s,
    fun a => read_writeBytes_cipherBytes_of_le hwf s⟩

/-- Settles O37: the lengths are checked first, and the result is a run of bytes written to OUT from index 0. -/
theorem cipherCopyCommand : Obligations.CipherCopyCommand := by
  refine ⟨fun s hf => ⟨fun hbad => exec_cipherCp_of_size hf (cipherSizeBad_of_illegal hbad),
    fun K V M hok hwf hK hV hM => ?_⟩, illegalWhen_of_formatN (by decide) (by decide)⟩
  rw [← cipherBytes_eq hK hV hM]
  exact ⟨_, exec_cipherCp_of_ok hf hok, bytesOf_writeBytes_cipherBytes hwf s,
    fun a => read_writeBytes_cipherBytes_of_le hwf s⟩

/-- Settles O38: both CIPHER commands end in `discardSt`, unfaulted, where every command that reads the state faults. -/
theorem endOfRunDiscardsTheState : Obligations.EndOfRunDiscardsTheState := by
  intro s i j hf hok hi
  refine ⟨?_, fun K V M ⟨hlen, _⟩ => by rw [cipher_snd, hlen]⟩
  obtain ⟨t, hexec, hflt, hsv⟩ : ∃ t, exec i s = .next t ∧ t.flt = false ∧ t.sv = false := by
    simp only [List.mem_cons, List.not_mem_nil, or_false] at hi
    obtain rfl | rfl := hi
    · exact ⟨_, exec_cipherIp_of_ok hf hok, hf, rfl⟩
    · exact ⟨_, exec_cipherCp_of_ok hf hok, hf, rfl⟩
  exact ⟨t, hexec, hsv, readSt_of_not_sv hsv, exec_of_wf_of_not_sv hflt hsv⟩

/-- Settles O39: SETUP and WARMUP build on `s` the state CIPHER.CP starts from on `p`, and the KSBYTE words leave its keystream
byte `n` in RES. -/
theorem driverFromItsParts : Obligations.DriverFromItsParts := by
  intro s p u K V n hpf hpok hpout hpK hpV hu hn hsf hsok hsK hsV hs
  obtain ⟨t, hrun, hsv, hres⟩ := runProgram_setup_warmup_ksbyte hsf hsok hs
  have hks : t.res = p.cipherKeystream n := by
    rw [hres, State.cipherKeystream, State.keyBytes, State.ivBytes, State.keyBytes, State.ivBytes, tenBytes_eq hsK,
      tenBytes_eq hsV, tenBytes_eq hpK, tenBytes_eq hpV]
  exact ⟨t, hrun, hsv, hks ▸ readOut_of_exec_cipherCp hpf hpok hpout hu hn⟩

/-- Settles O40: each byte below LEN meets the same keystream byte twice, and equal memories are equal data. -/
theorem inPlaceTwiceRestoresTheInput : Obligations.InPlaceTwiceRestoresTheInput := by
  intro s hf hok hwf
  have hcancel := writeBytes_cipherBytes_cancel
    (t := (s.setIn (s.inBuf.writeBytes 0 s.cipherBytes)).discardSt) hwf rfl rfl rfl
  refine ⟨_, exec_cipherIp_of_ok hf hok, ?_⟩
  rw [exec_cipherIp_of_ok (by exact hf) (by exact hok), hcancel]
  rfl

/-- Settles O41: both runs have one keystream, and what is XORed with it twice is as before. -/
theorem copyThenDecryptGivesTheInput : Obligations.CopyThenDecryptGivesTheInput := by
  intro s s' t hf hok hout ht hf' hout' hcfg hklen hvlen hlen hkey hiv hcopied
  have hok' : s'.cipherSizeOk := by rw [State.cipherSizeOk, State.keyIvSizeOk, hcfg, hklen, hvlen, hlen]; exact hok
  have hu := exec_cipherCp_of_ok hf' hok'
  refine ⟨_, hu, hlen, fun idx hidx => ?_⟩
  have hks : s'.cipherKeystream idx = s.cipherKeystream idx := by
    rw [State.cipherKeystream, State.cipherKeystream, State.keyBytes, State.ivBytes, State.keyBytes, State.ivBytes,
      hcfg, hkey, hiv]
  have hin := (hcopied idx hidx).symm.trans (readOut_of_exec_cipherCp hf hok hout ht hidx)
  rw [readOut_of_exec_cipherCp hf' hok' hout' hu (hlen ▸ hidx), Option.some.inj hin, hks, xor_xor_cancel_byte]

end Sys2Proof.Machine
end

section
/-!
SUPPORT. A command on a faulted core; the conditions of 60_exceptions.md R141 read off a command's word; the priority of R143 as
the command's own checks; and the statements of 60_exceptions.md, settled.
-/

namespace Sys2Proof.Machine

/-! ### On a faulted core (60_exceptions.md R145) -/

theorem exec_of_flt {s : State} (h : s.flt = true) (i : Instr) : exec i s = .next s := by
  cases i <;> exact unlessFaulted_of_flt h _

theorem issueWord_of_flt {s : State} (h : s.flt = true) (w : CmdWord) : issueWord w s = .next s := by
  cases hd : decode w with
  | error e => rw [issueWord_error hd, unlessFaulted_of_flt h]
  | ok i => rw [issueWord_ok hd, exec_of_flt h]

theorem SameCore.flt_eq {s t : State} (h : SameCore s t) : t.flt = s.flt := by rw [h]

/-! ### What is no command (60_exceptions.md R143, step 2) -/

/-- No word can raise the cause that means "no fault since reset". -/
theorem cause_ne_none_of_faultAllowed {w : CmdWord} {c : Cause} (h : faultAllowed w c = true) : c ≠ .none := by
  rintro rfl
  cases hd : decode w with
  | error e => simp [faultAllowed, hd] at h
  | ok i => cases i <;> simp [faultAllowed, hd, eq_ite_iff] at h

theorem exists_decode_of_isMatch {w : CmdWord} {r : OpcodeRow} (hr : r ∈ opcodeMap) (h : r.isMatch w) :
    ∃ i, decode w = .ok i := by
  simp only [opcodeMap, List.mem_cons, List.not_mem_nil, or_false] at hr
  have full : ∀ i, w &&& 0xFFFF#16 = encode i → ∃ i, decode w = .ok i := fun i hw =>
    ⟨i, (decode_eq_ok_iff_full_row w i).mpr hw⟩
  obtain rfl | rfl | rfl | rfl | rfl | rfl | rfl | rfl | rfl | rfl | rfl := hr
  · obtain ⟨off, hd⟩ := (decode_getbit_iff_row w).mpr h
    exact ⟨_, hd⟩
  · obtain ⟨off, v, hd⟩ := (decode_putbit_iff_row w).mpr h
    exact ⟨_, hd⟩
  · obtain ⟨k, n, hd⟩ := (decode_xwf_iff_row w).mpr h
    exact ⟨_, hd⟩
  · obtain ⟨k, n, hd⟩ := (decode_xwb_iff_row w).mpr h
    exact ⟨_, hd⟩
  exacts [full .setup h, full .rot1 h, full .clock h, full .ksbyte h, full .warmup h, full .cipherIp h, full .cipherCp h]

theorem isIllegalWord_of_decode_error {w : CmdWord} {e : DecodeError} (h : decode w = .error e) : isIllegalWord w := by
  intro r hr hmatch
  obtain ⟨i, hi⟩ := exists_decode_of_isMatch hr hmatch
  cases h.symm.trans hi

theorem not_isIllegalWord_encode (i : Instr) : ¬ isIllegalWord (encode i) :=
  fun h => h i.row (row_mem_opcodeMap i) (encode_isMatch_row i)

/-! ### The conditions on the numbers of a command's word (60_exceptions.md R141) -/

/-- The opcode of a command's word is that of its row (30_encoding.md R53). -/
theorem opcodeOf_encode (i : Instr) : opcodeOf (encode i) = opcodeOf i.row.matchBits := by
  have hrow := encode_isMatch_row i
  cases i with
  | getbit | xwf | xwb =>
    have hw := toNat_div_512_of_and_eq hrow
    simp only [opcodeOf, Instr.row, BitVec.toNat_ofNat] at hw ⊢
    omega
  | putbit =>
    have hw := toNat_div_1024_of_and_eq hrow
    simp only [opcodeOf, Instr.row, BitVec.toNat_ofNat] at hw ⊢
    omega
  | _ => rfl

/-- Legal operands are those with neither of the faults of the operands' range. -/
theorem wf_of_not_hasBad {i : Instr} (ho : ¬ hasBadOffset (encode i)) (hx : ¬ hasBadCrosswrite (encode i)) :
    i.wf = true := by
  rw [hasBadOffset, opcodeOf_encode] at ho
  rw [hasBadCrosswrite, opcodeOf_encode] at hx
  cases i with
  | getbit off =>
    have hw := toNat_encode_getbit off
    have hoff := not_and.mp ho (by simp [opcodeOf, Instr.row])
    simp only [Instr.wf, decide_eq_true_eq]
    omega
  | putbit off v =>
    have hw := toNat_encode_putbit off v
    have hoff := not_and.mp ho (by simp [opcodeOf, Instr.row])
    simp only [Instr.wf, decide_eq_true_eq]
    omega
  | xwf k n =>
    have hw := toNat_encode_xwf k n
    refine (xwf_wf_iff k n).mpr ?_
    have hrange := not_and.mp hx (by simp [opcodeOf, Instr.row])
    omega
  | xwb k n =>
    have hw := toNat_encode_xwb k n
    refine (xwb_wf_iff k n).mpr ?_
    have hrange := not_and.mp hx (by simp [opcodeOf, Instr.row])
    omega
  | _ => rfl

/-- The commands that build their own state are those that do not read it. -/
theorem opcodeOf_encode_reads_state_iff (i : Instr) :
    opcodeOf (encode i) ∈ [0x1, 0x2, 0x3, 0x4, 0x6, 0x7, 0x8, 0x9] ↔ i ∉ [Instr.setup, .cipherIp, .cipherCp] := by
  rw [opcodeOf_encode]
  cases i <;> simp [opcodeOf, Instr.row]

theorem cipherSizeBad_of_not_hasBadSize {s : State} {i : Instr} (hi : i = .cipherIp ∨ i = .cipherCp)
    (h : ¬ hasBadSize (encode i) s) : s.cipherSizeBad = false := by
  have hop : opcodeOf (encode i) ∈ [0xA, 0xB] := by obtain rfl | rfl := hi <;> decide
  obtain ⟨hkeyIv, hlen⟩ := not_or.mp h
  obtain ⟨hzero, hle⟩ := not_or.mp (not_and.mp hlen hop)
  have hok : s.keyIvSizeOk := by simpa using not_and.mp hkeyIv (List.mem_cons_of_mem _ hop)
  exact cipherSizeBad_of_ok ⟨hok, by bv_omega, by omega⟩

/-! ### A command takes the first fault that applies, or completes (60_exceptions.md R143, steps 3 to 5) -/

section
variable {s : State} (hf : s.flt = false) {i : Instr}

theorem exists_completes (hwf : i.wf = true) (hsize : ¬ hasBadSize (encode i) s) (hst : ¬ lacksState (encode i) s) :
    ∃ t, Completes s i t := by
  have state : i ∉ [Instr.setup, .cipherIp, .cipherCp] → ∃ b, s.st = some b := fun hi =>
    Option.isSome_iff_exists.mp (Bool.of_not_eq_false fun hsv => hst ⟨(opcodeOf_encode_reads_state_iff i).mpr hi, hsv⟩)
  cases i with
  | getbit off =>
    obtain ⟨b, hb⟩ := state (by simp)
    exact ⟨_, .getbit hb (by simpa [Instr.wf, Nat.lt_succ_iff] using hwf)⟩
  | putbit off v =>
    obtain ⟨b, hb⟩ := state (by simp)
    exact ⟨_, .putbit hb (by simpa [Instr.wf, Nat.lt_succ_iff] using hwf)⟩
  | xwf k n =>
    obtain ⟨b, hb⟩ := state (by simp)
    exact ⟨_, .xwf hb ((xwf_wf_iff k n).mp hwf)⟩
  | xwb k n =>
    obtain ⟨b, hb⟩ := state (by simp)
    exact ⟨_, .xwb hb ((xwb_wf_iff k n).mp hwf)⟩
  | rot1 => obtain ⟨b, hb⟩ := state (by simp); exact ⟨_, .rot1 hb⟩
  | clock => obtain ⟨b, hb⟩ := state (by simp); exact ⟨_, .clock hb⟩
  | ksbyte => obtain ⟨b, hb⟩ := state (by simp); exact ⟨_, .ksbyte hb⟩
  | warmup => obtain ⟨b, hb⟩ := state (by simp); exact ⟨_, .warmup hb⟩
  | setup => exact ⟨_, .setup (keyIvSizeBad_of_ok (by simpa [opcodeOf, encode] using hsize))⟩
  | cipherIp => exact ⟨_, .cipherIp (cipherSizeBad_of_not_hasBadSize (.inl rfl) hsize)⟩
  | cipherCp => exact ⟨_, .cipherCp (cipherSizeBad_of_not_hasBadSize (.inr rfl) hsize)⟩

include hf

theorem exec_of_hasBadOffset (h : hasBadOffset (encode i)) : exec i s = raise .offset (encode i) s := by
  obtain ⟨hop, hoff⟩ := h
  rw [opcodeOf_encode] at hop
  cases i with
  | getbit off =>
    have hw := toNat_encode_getbit off
    exact exec_getbit_of_le hf (by omega)
  | putbit off v =>
    have hw := toNat_encode_putbit off v
    exact exec_putbit_of_le hf v (by omega)
  | _ => simp [opcodeOf, Instr.row] at hop

theorem exec_of_hasBadCrosswrite (h : hasBadCrosswrite (encode i)) : exec i s = raise .xwRange (encode i) s := by
  obtain ⟨hop, hrange⟩ := h
  rw [opcodeOf_encode] at hop
  cases i with
  | xwf k n =>
    have hw := toNat_encode_xwf k n
    exact exec_xwf_of_not_range hf (by omega)
  | xwb k n =>
    have hw := toNat_encode_xwb k n
    exact exec_xwb_of_not_range hf (by omega)
  | _ => simp [opcodeOf, Instr.row] at hop

theorem exec_of_hasBadSize (h : hasBadSize (encode i) s) : exec i s = raise .size (encode i) s := by
  rw [hasBadSize, opcodeOf_encode] at h
  cases i with
  | setup => exact exec_setup_of_size hf (by simpa [opcodeOf, Instr.row] using h)
  | cipherIp => exact exec_cipherIp_of_size hf (cipherSizeBad_of_illegal (by simpa [opcodeOf, Instr.row, or_assoc] using h))
  | cipherCp => exact exec_cipherCp_of_size hf (cipherSizeBad_of_illegal (by simpa [opcodeOf, Instr.row, or_assoc] using h))
  | _ => simp [opcodeOf, Instr.row] at h

theorem exec_of_lacksState (hwf : i.wf = true) (h : lacksState (encode i) s) :
    exec i s = raise .stateInvalid (encode i) s :=
  exec_of_wf_of_not_sv hf h.2 hwf ((opcodeOf_encode_reads_state_iff i).mp h.1)

/-- A word issued to an unfaulted core raises the cause expected of it, or none is and its command completes. -/
theorem issueWord_of_not_flt (w : CmdWord) :
    (expectedCause w s ≠ .none ∧ issueWord w s = raise (expectedCause w s) w s) ∨
    (expectedCause w s = .none ∧ ∃ i t, decode w = .ok i ∧ Completes s i t) := by
  cases hd : decode w with
  | error e =>
    rw [issueWord_error hd, unlessFaulted_of_not_flt hf, expectedCause, if_pos (isIllegalWord_of_decode_error hd)]
    exact .inl ⟨by decide, rfl⟩
  | ok i =>
    obtain rfl := encode_of_decode hd
    rw [issueWord_ok hd, expectedCause, if_neg (not_isIllegalWord_encode i)]
    split_ifs with hoffset hcross hsize hstate
    · exact .inl ⟨by decide, exec_of_hasBadOffset hf hoffset⟩
    · exact .inl ⟨by decide, exec_of_hasBadCrosswrite hf hcross⟩
    · exact .inl ⟨by decide, exec_of_hasBadSize hf hsize⟩
    · exact .inl ⟨by decide, exec_of_lacksState hf (wf_of_not_hasBad hoffset hcross) hstate⟩
    · obtain ⟨t, ht⟩ := exists_completes (wf_of_not_hasBad hoffset hcross) hsize hstate
      exact .inr ⟨rfl, i, t, rfl, ht⟩

end

/-! ### The obligations -/

/-- Settles O43: of what a word issued can do only a fault sets FLT, and a completed command keeps it. -/
theorem faultEntryIsPrecise : Obligations.FaultEntryIsPrecise := by
  intro s t w hf hw ht
  obtain ⟨hf', -⟩ | ⟨-, ⟨c, hc, rfl⟩ | ⟨i, -, hi⟩⟩ := issueWord_next_cases hw
  · cases hf.symm.trans hf'
  · exact ⟨cause_ne_none_of_faultAllowed hc, rfl⟩
  · cases ht.symm.trans (hi.flt_eq.trans hf)

/-- Settles O44: the command's checks are made in the order of the rule, and a command that passes them all completes. -/
theorem faultPriority : Obligations.FaultPriority := by
  intro s w
  refine ⟨fun hf => issueWord_of_flt hf w, fun hf => ?_⟩
  obtain ⟨hc, hw⟩ | ⟨hc, i, t, hd, hi⟩ := issueWord_of_not_flt hf w
  · exact ⟨_, hw, fun _ => rfl, fun hnone => absurd hnone hc⟩
  · obtain ⟨-, -, -, hcause, hfcmd⟩ := hi.frame
    exact ⟨t, (issueWord_ok hd s).trans (hi.exec_eq hf), fun hsome => absurd hc hsome,
      fun _ => ⟨hi.flt_eq.trans hf, hcause, hfcmd⟩⟩

/-- Settles O45: every command, and a word that is none, is refused before its other checks. -/
theorem faultIsSticky : Obligations.FaultIsSticky := fun s hf =>
  ⟨exec_of_flt hf, fun w rest hs => (step_issue hs).trans (issueWord_of_flt (s := s.setHost rest) hf w)⟩

/-- Settles O46: a word issued leaves a faulted core as it is, and the host's writes do not reach FLT. -/
theorem onlyResetClearsAFault : Obligations.OnlyResetClearsAFault := by
  intro s t hstep hf ht
  obtain ⟨w, rest, -, hw⟩ | ⟨hreset, hsv⟩ | hsame := step_core_cases hstep
  · rw [issueWord_of_flt (s := s.setHost rest) hf] at hw
    cases hw
    cases hf.symm.trans ht
  · exact ⟨hsv, hreset⟩
  · cases ht.symm.trans (hsame.flt_eq.trans hf)

/-- Settles O48: a faulted core refuses, and an unfaulted one faults or completes (O44); a command is its word issued. -/
theorem everyCommandReachesANextState : Obligations.EveryCommandReachesANextState := by
  have issued : ∀ (w : CmdWord) (s : State), ∃ t, issueWord w s = .next t := fun w s => by
    obtain ⟨hfaulted, hunfaulted⟩ := faultPriority s w
    cases hf : s.flt with
    | true => exact ⟨s, hfaulted hf⟩
    | false =>
      obtain ⟨t, ht, -⟩ := hunfaulted hf
      exact ⟨t, ht⟩
  exact ⟨fun i s => issueWord_ok (decode_encode i) s ▸ issued (encode i) s, issued⟩

end Sys2Proof.Machine
end

section
/-!
SUPPORT. Which bytes of IN an abandoned CIPHER.IP changes (70_reset_and_hazards.md R171, 93_implementation_defined.md U6), the steps
that latch a fault and what a run is before it (R181); and the statements of 70_reset_and_hazards.md, settled.
-/

namespace Sys2Proof.Machine

/-! ### IN under an abandoned CIPHER.IP -/

theorem length_partlyLanded (draw idx : Nat) (old new : List Byte) :
    (partlyLanded draw idx old new).length = min old.length new.length := by
  induction old generalizing idx new with
  | nil => simp [partlyLanded]
  | cons o old ih =>
    cases new with
    | nil => simp [partlyLanded]
    | cons n new => simp [partlyLanded, ih]

theorem getElem_partlyLanded {draw idx : Nat} {old new : List Byte} {i : Nat}
    (h : i < (partlyLanded draw idx old new).length) (ho : i < old.length) (hn : i < new.length) :
    (partlyLanded draw idx old new)[i] = if Config.landed draw (idx + i) then new[i] else old[i] := by
  induction old generalizing idx new i with
  | nil => cases ho
  | cons o old ih =>
    cases new with
    | nil => cases hn
    | cons n new =>
      cases i with
      | zero => rfl
      | succ i =>
        simp only [partlyLanded, List.getElem_cons_succ]
        rw [ih, Nat.add_right_comm, Nat.add_assoc]

/-- A byte below LEN that landed is the completed command's, and every other byte of IN is as it was. -/
theorem read_abandonedIn {s : State} (hwf : s.inBuf.wf) (a : Nat) :
    s.abandonedIn.read a =
      if a < s.len.toNat ∧ Config.landed s.draws a then (s.inBuf.writeBytes 0 s.cipherBytes).read a else s.inBuf.read a := by
  have hnew := length_cipherBytes s
  have hold : s.inBytes.length = s.len.toNat := Memory.length_readBytes _ _ _
  have hlen := length_partlyLanded s.draws 0 s.inBytes s.cipherBytes
  rw [State.abandonedIn, Memory.read_writeBytes hwf, Memory.read_writeBytes hwf]
  by_cases ha : a < s.len.toNat
  · rw [dif_pos (by omega), dif_pos (by omega), getElem_partlyLanded _ (by omega) (by omega)]
    simp [ha, State.inBytes]
  · rw [dif_neg (by omega), if_neg fun h => ha h.1]

/-! ### The steps that latch a fault -/

theorem not_flt_of_step_reset {s t : State} (hstep : step s = .next t)
    (h : ∃ rest, s.host = .reset :: rest ∨ ∃ w, s.host = .abandon w :: rest) : t.flt = false := by
  obtain ⟨rest, hs | ⟨w, hs⟩⟩ := h
  · rw [step_action hs] at hstep
    cases hstep
    rfl
  · rw [step_action hs] at hstep
    cases hstep
    obtain hw | ⟨-, -, -, hw⟩ := abandonWord_cases w (s.setHost rest) <;> rw [hw] <;> rfl

/-- A fault is latched by a word issued only, which is taken, and it is all that the word does (60_exceptions.md R144). -/
theorem step_newly_faulted {s t : State} (hstep : step s = .next t) (hf : s.flt = false) (ht : t.flt = true) :
    ∃ w rest, s.host = .issue w :: rest ∧ t.cause ≠ .none ∧
      t = { s with host := rest, flt := true, cause := t.cause, fcmd := w } := by
  obtain ⟨w, rest, hs, hw⟩ | ⟨hreset, -⟩ | hsame := step_core_cases hstep
  · exact ⟨w, rest, hs, faultEntryIsPrecise (s.setHost rest) t w hf hw ht⟩
  · cases ht.symm.trans (not_flt_of_step_reset hstep hreset)
  · cases ht.symm.trans (hsame.flt_eq.trans hf)

/-! ### A run before its end -/

theorem not_flt_of_completed {n : Nat} {s t : State} (h : runProgram n s = .completed t) : s.flt = false := by
  by_contra hf
  rw [runProgram_of_flt (by simpa using hf)] at h
  cases h

theorem runSteps_of_completed {n : Nat} {s t : State} (h : runProgram n s = .completed t) : runSteps n s = .next t := by
  induction n generalizing s with
  | zero =>
    rw [runProgram_zero (not_flt_of_completed h)] at h
    cases h
    rfl
  | succ n ih =>
    obtain ⟨-, -, u, hu, hrun⟩ := runProgram_succ_completed h
    rw [runSteps_of_step hu, ih hrun]

/-- The first interactions of a completed run are a completed run. -/
theorem exists_completed_of_le {m n : Nat} {s t : State} (h : runProgram n s = .completed t) (hle : m ≤ n) :
    ∃ u, runProgram m s = .completed u := by
  induction n generalizing m s with
  | zero => exact ⟨t, Nat.le_zero.mp hle ▸ h⟩
  | succ n ih =>
    obtain ⟨hf, ha, v, hv, hrun⟩ := runProgram_succ_completed h
    cases m with
    | zero => exact ⟨s, runProgram_zero hf⟩
    | succ m =>
      rw [runProgram_next hf ha hv]
      exact ih hrun (Nat.le_of_succ_le_succ hle)

/-- All that a run of one interaction more, ended by a fault, can be from an unfaulted core. -/
theorem runProgram_succ_faulted {n : Nat} {s t : State} (hf : s.flt = false) (h : runProgram (n + 1) s = .faulted t) :
    s.abandonsNext = false ∧ ∃ u, step s = .next u ∧ runProgram n u = .faulted t := by
  cases hs : step s with
  | next u =>
    cases ha : s.abandonsNext with
    | true => simp [runProgram, hf, hs, ha] at h
    | false => exact ⟨rfl, u, rfl, (runProgram_next hf ha hs n).symm.trans h⟩
  | fault r => simp [runProgram, hf, hs] at h
  | refused r => simp [runProgram, hf, hs] at h

/-- A run ended by a fault is a completed run and the step that latches the fault. -/
theorem exists_completed_then_faulted {n : Nat} {s t : State} (hf : s.flt = false) (h : runProgram n s = .faulted t) :
    ∃ m u, m < n ∧ runProgram m s = .completed u ∧ step u = .next t ∧ t.flt = true := by
  induction n generalizing s with
  | zero =>
    rw [runProgram_zero hf] at h
    cases h
  | succ n ih =>
    obtain ⟨ha, v, hv, hrun⟩ := runProgram_succ_faulted hf h
    cases hvf : v.flt with
    | true =>
      rw [runProgram_of_flt hvf] at hrun
      cases hrun
      exact ⟨0, s, Nat.succ_pos n, runProgram_zero hf, hv, hvf⟩
    | false =>
      obtain ⟨m, u, hlt, hm, hstep⟩ := ih hvf hrun
      exact ⟨m + 1, u, Nat.succ_lt_succ hlt, (runProgram_next hf ha hv m).trans hm, hstep⟩

/-- A completed run goes on with one word issued. -/
theorem runProgram_add_issue {m : Nat} {s u t : State} {w : CmdWord} {rest : List HostAction}
    (h : runProgram m s = .completed u) (hs : u.host = .issue w :: rest) (hstep : step u = .next t) (k : Nat) :
    runProgram (m + 1 + k) s = runProgram k t := by
  rw [Nat.add_assoc, runProgram_add h, Nat.add_comm,
    runProgram_next (runProgram_completed_flt h) (by rw [State.abandonsNext, hs]) hstep]

/-! ### The obligations -/

/-- Settles O50: the reset core and, under a CIPHER.IP that would have run, the bytes of IN that landed. -/
theorem abandonedCommandLeavesResetState : Obligations.AbandonedCommandLeavesResetState := by
  intro s w rest hwf hs
  refine ⟨_, (abandonWord w (s.setHost rest)).inBuf, [], (abandonWord w (s.setHost rest)).draws, step_action hs, ?_⟩
  obtain hw | ⟨hd, hf, hsize, hw⟩ := abandonWord_cases w (s.setHost rest) <;> rw [hw]
  · exact ⟨rfl, fun _ => .inl rfl⟩
  · refine ⟨rfl, fun a => ?_⟩
    have hok : s.cipherSizeOk := cipherSizeOk_of_not_bad hsize
    have hread : (s.setHost rest).abandonedIn.read a = _ := read_abandonedIn (s := s) hwf a
    split_ifs at hread with hlanded
    · exact .inr ⟨hd, hf, hok, hlanded.1, _, exec_cipherIp_of_ok hf hok, hread⟩
    · exact .inl hread

/-- Settles O60: only a word issued latches a fault, so a run is a completed one up to the command that faults. -/
theorem runEndsAtTheFirstFault : Obligations.RunEndsAtTheFirstFault := by
  refine ⟨fun n s t h => ⟨runSteps_of_completed h, fun m hle => ?_⟩, fun n s t hf h => ?_, fun m s u t h hstep ht k => ?_,
    fun m s u t w rest h hs hstep ht => ?_⟩
  · obtain ⟨u, hu⟩ := exists_completed_of_le h hle
    exact ⟨u, runSteps_of_completed hu, runProgram_completed_flt hu⟩
  · obtain ⟨m, u, hlt, hm, hstep, ht⟩ := exists_completed_then_faulted hf h
    obtain ⟨w, rest, hfault⟩ := step_newly_faulted hstep (runProgram_completed_flt hm) ht
    exact ⟨m, u, w, rest, hlt, hm, hfault⟩
  · obtain ⟨w, rest, hs, -⟩ := step_newly_faulted hstep (runProgram_completed_flt h) ht
    have hrun : runProgram (m + 1 + k) s = .faulted t := by rw [runProgram_add_issue h hs hstep, runProgram_of_flt ht]
    exact ⟨hrun, fun t' ht' => by cases hrun.symm.trans ht'⟩
  · exact (runProgram_add_issue h hs hstep 0).trans (runProgram_zero ht)

end Sys2Proof.Machine
end
